-- ==== Sys2Proof/Word.lean ====
section
/-! DEFINITION. The machine word: a signed 64-bit cell (00_scope.md R6, R7). -/

namespace Sys2Proof

/-- `W64` of R7: a 64-bit two's-complement word, the type of every cell, of `ip`, of `rb`, of every
parameter word, operand, result, input value and output value. Its integer value is `BitVec.toInt`. -/
abbrev W64 := BitVec 64

/-- `wrap64(z)` of R7: the unique word congruent to `z` modulo 2^64. -/
def wrap64 (z : Int) : W64 := BitVec.ofInt 64 z

end Sys2Proof
end

