-- ==== Sys2Proof/Syntax.lean ====
section
/-! DEFINITION. Instructions as syntax: one constructor per row of spec/opcode_table.json, and the
instruction table of 30_encoding.md R92 (opcode, parameter kinds, class). -/

namespace Sys2Proof

/-- The mode digit of one parameter, already decoded: R85's three modes, and the seven digits 3 .. 9
that R86 makes illegal (`reserved d` is the digit `d + 3`). A reserved digit is kept because the core
meets it only when it processes that parameter (R136). -/
inductive Mode where
  | position
  | immediate
  | relative
  | reserved (d : Fin 7)
  deriving DecidableEq, Repr

/-- The decimal digit that encodes a mode (R85, R86). -/
def Mode.digit : Mode → Nat
  | .position => 0
  | .immediate => 1
  | .relative => 2
  | .reserved d => d.val + 3

/-- One parameter of an instruction: its mode digit, from the instruction word, and its parameter
word, a whole cell used as it is (R89). -/
structure Param where
  mode : Mode
  word : W64
  deriving DecidableEq, Repr

/-- The ten instructions of R92 (opcode_table.json). `inp` is the table's `in` and `halt` its `end`
(both words are reserved in Lean). A value parameter and a destination parameter have the same shape
here; which one a position takes is `Opcode.kinds`. -/
inductive Instr where
  | add (a b dest : Param)
  | mul (a b dest : Param)
  | inp (dest : Param)
  | out (a : Param)
  | tjmp (a addr : Param)
  | fjmp (a addr : Param)
  | lt (a b dest : Param)
  | eq (a b dest : Param)
  | rbs (a : Param)
  | halt
  deriving DecidableEq, Repr

/-- The rows of the instruction table (R92), by name. -/
inductive Opcode where
  | add | mul | inp | out | tjmp | fjmp | lt | eq | rbs | halt
  deriving DecidableEq, Repr

/-- The kind of a parameter (R90): resolved to a value when it is fetched, or kept as the place of
the write. -/
inductive Kind where
  | value
  | destination
  deriving DecidableEq, Repr

/-- D00's class column of R92. -/
inductive OpClass where
  | plain
  | inputClass
  | outputClass
  | halt
  deriving DecidableEq, Repr

/-- The numeric opcode, the low two decimal digits of the instruction word (R92, R94). -/
def Opcode.code : Opcode → Nat
  | .add => 1
  | .mul => 2
  | .inp => 3
  | .out => 4
  | .tjmp => 5
  | .fjmp => 6
  | .lt => 7
  | .eq => 8
  | .rbs => 9
  | .halt => 99

/-- The parameter kinds in order (R91, R92): formats VVD, D, V, VV and Z. -/
def Opcode.kinds : Opcode → List Kind
  | .add | .mul | .lt | .eq => [.value, .value, .destination]
  | .inp => [.destination]
  | .out | .rbs => [.value]
  | .tjmp | .fjmp => [.value, .value]
  | .halt => []

/-- The number of parameters, 0 to 3 (R80, R92). -/
def Opcode.arity (o : Opcode) : Nat := o.kinds.length

/-- The class of an instruction (R92, R172). -/
def Opcode.opClass : Opcode → OpClass
  | .inp => .inputClass
  | .out => .outputClass
  | .halt => .halt
  | .add | .mul | .tjmp | .fjmp | .lt | .eq | .rbs => .plain

/-- The whole table, in the order of R92. -/
def Opcode.all : List Opcode := [.add, .mul, .inp, .out, .tjmp, .fjmp, .lt, .eq, .rbs, .halt]

/-- The row of the table an instruction belongs to. -/
def Instr.opcode : Instr → Opcode
  | .add _ _ _ => .add
  | .mul _ _ _ => .mul
  | .inp _ => .inp
  | .out _ => .out
  | .tjmp _ _ => .tjmp
  | .fjmp _ _ => .fjmp
  | .lt _ _ _ => .lt
  | .eq _ _ _ => .eq
  | .rbs _ => .rbs
  | .halt => .halt

/-- The parameters of an instruction, in the order of their words in memory (R134). -/
def Instr.params : Instr → List Param
  | .add a b d | .mul a b d | .lt a b d | .eq a b d => [a, b, d]
  | .inp d => [d]
  | .out a | .rbs a => [a]
  | .tjmp a t | .fjmp a t => [a, t]
  | .halt => []

/-- The length in cells, `1 + arity` (R93). -/
def Instr.length (i : Instr) : Nat := 1 + i.opcode.arity

end Sys2Proof
end

