-- ==== Sys2Proof/Decode.lean ====
section
/-! DEFINITION. The decoder of 30_encoding.md R97, total on every word, and the encoder of R95. The
encoding is in decimal digits (00_scope.md R8). -/

namespace Sys2Proof

/-- `digit(w, j)` of R8: the decimal digit of weight 10^j. -/
def digit (w j : Nat) : Nat := w / 10 ^ j % 10

/-- `opcode(w)` of R8: the low two decimal digits. Used on words that are not negative only. -/
def opcodeField (w : W64) : Nat := w.toNat % 100

/-- `mode(w, k)` of R8: the mode digit of parameter `k` = 1, 2, 3 is the digit of weight 10^(k+1). -/
def modeDigit (w : W64) (k : Nat) : Nat := digit w.toNat (k + 1)

/-- The mode a decimal digit stands for (R85, R86). -/
def Mode.ofDigit : Nat → Mode
  | 0 => .position
  | 1 => .immediate
  | 2 => .relative
  | d + 3 => .reserved ⟨d % 7, Nat.mod_lt d (by decide)⟩

/-- The lookup of the dispatcher (R133): the row with this opcode, if there is one. -/
def Opcode.ofCode (c : Nat) : Option Opcode := Opcode.all.find? fun o => o.code == c

/-- Why a word is no instruction word (R84, R94). -/
inductive Reject where
  /-- The word is negative (R84, decision D1). -/
  | negativeWord (w : W64)
  /-- The word's low two decimal digits are 0 or 10 .. 98 (R94). -/
  | unknownOpcode (w : W64)
  deriving DecidableEq, Repr

/-- The longest instruction's worth of cells: an instruction word and the three cells after it
(R80). A shorter instruction does not look at the rest. -/
structure Window where
  word : W64
  p1 : W64
  p2 : W64
  p3 : W64
  deriving DecidableEq, Repr

/-- A window from a list of cells; cells that are missing are 0. -/
def Window.ofWords (ws : List W64) : Window :=
  ⟨ws.getD 0 0#64, ws.getD 1 0#64, ws.getD 2 0#64, ws.getD 3 0#64⟩

/-- The instruction of a table row with its parameters in order (R92); the row takes as many of the
three as it has. -/
def Opcode.build : Opcode → Param → Param → Param → Instr
  | .add, a, b, c => .add a b c
  | .mul, a, b, c => .mul a b c
  | .inp, a, _, _ => .inp a
  | .out, a, _, _ => .out a
  | .tjmp, a, b, _ => .tjmp a b
  | .fjmp, a, b, _ => .fjmp a b
  | .lt, a, b, c => .lt a b c
  | .eq, a, b, c => .eq a b c
  | .rbs, a, _, _ => .rbs a
  | .halt, _, _, _ => .halt

/-- The decoder (R97): a negative word and an opcode that is not in the table are rejected by name;
otherwise the row of the opcode with the mode digits of its own parameters (R81, R88) and their words
(R89). Mode digits are checked later, parameter by parameter (R136). -/
def decode (x : Window) : Except Reject Instr :=
  if x.word.toInt < 0 then .error (.negativeWord x.word)
  else
    match Opcode.ofCode (opcodeField x.word) with
    | none => .error (.unknownOpcode x.word)
    | some op =>
      .ok (op.build ⟨Mode.ofDigit (modeDigit x.word 1), x.p1⟩
        ⟨Mode.ofDigit (modeDigit x.word 2), x.p2⟩ ⟨Mode.ofDigit (modeDigit x.word 3), x.p3⟩)

/-- The mode digits of a list of parameters, the first with weight 10^j (R81, R95). -/
def modeDigits (j : Nat) : List Param → Nat
  | [] => 0
  | p :: ps => p.mode.digit * 10 ^ j + modeDigits (j + 1) ps

/-- The canonical instruction word of R95 (`x = 0`): opcode and mode digits. -/
def Instr.headWord (i : Instr) : Nat := i.opcode.code + modeDigits 2 i.params

/-- The cells of an instruction: its canonical instruction word, then its parameter words (R80). -/
def encode (i : Instr) : List W64 := BitVec.ofNat 64 i.headWord :: i.params.map Param.word

/-- The words of a bit string in the numbering the host uses for spec/opcode_table.json: bit 0 is the
least significant bit of the first word, word `k` is bits 64k+63 .. 64k (log 34). Bits at and above
`nbits` are 0. -/
def tableWindow (nbits w : Nat) : Window :=
  let v := w % 2 ^ nbits
  ⟨BitVec.ofNat 64 v, BitVec.ofNat 64 (v / 2 ^ 64), BitVec.ofNat 64 (v / 2 ^ 128),
    BitVec.ofNat 64 (v / 2 ^ 192)⟩

/-- What the decoder reads from an instruction whose bits are `w`. -/
def decodeTableWord (nbits w : Nat) : Option Instr :=
  match decode (tableWindow nbits w) with
  | .ok i => some i
  | .error _ => none

end Sys2Proof
end

