-- ==== Sys2Proof/Config.lean ====
section
/-! DEFINITION. What the spec fixes for every instance (00_scope.md R6), and the one free value. -/

namespace Sys2Proof

/-- `ADDR_MAX` of R6: the highest legal cell address, 2^63-1 (decision D4). -/
def Config.addrMax : Nat := 9223372036854775807

/-- `N_MAX` of R6: the longest loadable program, 2^63-1 cells (decision D15). -/
def Config.programMax : Nat := 9223372036854775807

/-- The attachments of a core nobody has configured: DESIGN CHOICE, log 6 (R39 says "as the host
configured"; 95_test_vectors.md starts its runs with both ports attached). -/
def Config.attachedAtReset : Bool := true

/-- FREE VALUE (log 4): what the host's input source answers to its `k`-th `InputRead()` when the
model does not already hold that value in `State.inputs`. R173: the core treats it as an arbitrary
`W64`. It has no body, so no proof can see it. -/
opaque Config.inputValue : Nat → W64

end Sys2Proof
end

