-- ==== Sys2Proof/Machine/State.lean ====
section
/-! DEFINITION. The state of one core (10_state.md R20), plain data, and the state after reset (R39). -/

namespace Sys2Proof.Machine

/-- The six faults of R231, each with its `info`. -/
inductive Cause where
  /-- Code 1, `HaltedAccessError`: `ip >= N` at step 1; info: `ip` (R232). -/
  | haltedAccess (ip : W64)
  /-- Code 2, `InvalidOpcodeError`: negative word or opcode not in the table; info: the word (R233). -/
  | invalidOpcode (w : W64)
  /-- Code 3, `InvalidParamModeError`: info: parameter number and mode digit (R234). -/
  | invalidParamMode (k digit : Nat)
  /-- Code 4, `IncompleteInstructionError`: a parameter word at or beyond `N`; info: `ip` (R235). -/
  | incompleteInstruction (ip : W64)
  /-- Code 5, `InputNotConnectedError` (R236). -/
  | inputNotConnected
  /-- Code 6, `AddressRangeFault`: info: the offending address, possibly outside `W64` (R238). -/
  | addressRange (a : Int)
  deriving DecidableEq, Repr

/-- The numeric code of a fault (R231, decision D13; the numbers have no authority). -/
def Cause.code : Cause → Nat
  | .haltedAccess _ => 1
  | .invalidOpcode _ => 2
  | .invalidParamMode _ _ => 3
  | .incompleteInstruction _ => 4
  | .inputNotConnected => 5
  | .addressRange _ => 6

/-- The two modes a destination may have (R85, R87). -/
inductive DestMode where
  | position
  | relative
  deriving DecidableEq, Repr

/-- A destination descriptor (R138): mode and parameter word, not yet an address. -/
structure Dest where
  mode : DestMode
  word : W64
  deriving DecidableEq, Repr

/-- The control state (R27). -/
inductive Phase where
  /-- Between instructions. -/
  | run
  /-- `in` is half done: its destination descriptor is latched, the value not yet taken. -/
  | inWait (d : Dest)
  /-- `out` is half done: its value is latched, not yet handed over. -/
  | outWait (v : W64)
  /-- `end` has executed; terminal. -/
  | halted
  /-- A fault was raised; terminal (R30, R240). -/
  | faulted (c : Cause)
  deriving DecidableEq, Repr

/-- One listed cell: its address and its word (R51, R58; log 1). -/
abbrev Cell := Nat × W64

/-- Memory as the list of its cells that do not hold 0, addresses strictly rising; an unlisted
address reads 0 (R40, R53). -/
abbrev Memory := List Cell

/-- The five reasons of a suspension event (R12, R37, C4). -/
inductive Reason where
  | aboutToInput
  | afterInput
  | aboutToOutput
  | afterOutput
  | halted
  deriving DecidableEq, Repr

/-- A suspension event: its reason and the memory at that moment, and nothing else (R37, R177). -/
structure Event where
  reason : Reason
  snapshot : Memory
  deriving DecidableEq, Repr

/-- One core: the tuple of R20, and below the line what the model keeps of the core's ports (R35 to
R37), which the spec gives to the host (R32; log 5). -/
structure State where
  /-- `N`, the program length (R26). -/
  n : Nat
  /-- `mem` (R31). -/
  mem : Memory
  /-- The instruction pointer (R22). -/
  ip : W64
  /-- The relative base (R24). -/
  rb : W64
  /-- The halted flag (R25). -/
  halted : Bool
  /-- The control state (R27). -/
  phase : Phase
  /-- An input source is attached (R29). -/
  inAttached : Bool
  /-- An output sink is attached (R29). -/
  outAttached : Bool
  /-- MODEL: values the input source will deliver next, oldest first (R35, R252; log 4). -/
  inputs : List W64
  /-- MODEL: how many values `InputRead()` has taken (log 4). -/
  inputsTaken : Nat
  /-- MODEL: the output stream, oldest first (R36, R174). -/
  outputs : List W64
  /-- MODEL: the event sequence, oldest first (R37). -/
  events : List Event
  deriving DecidableEq, Repr

/-- Why a step has no next state. The core's own six faults are not here: raising one is a next state
in phase FAULTED (R240, log 2). -/
inductive Fault where
  /-- Raised by `step` in phase HALTED: "no step" (R143, R183). Safe: nothing runs on (log 3). -/
  | coreHalted
  /-- Raised by `step` in phase FAULTED: "no step" (R143, R242); the fault that ended the run. Safe. -/
  | coreFaulted (c : Cause)
  deriving DecidableEq, Repr

/-- Why an instruction has no meaning. -/
inductive Refusal where
  /-- Raised by `exec` for an instruction the model does not cover yet; no arm does. Safe. -/
  | notModelled (mnemonic : String)
  deriving DecidableEq, Repr

/-- The machine right after a reset that loads the empty Program (R39, R270, R277): `ip`, `rb`,
`halted`, `phase` and memory as the spec says; the attachments are a DESIGN CHOICE (log 6), and so are
the values of the model's own fields (log 5). -/
def State.reset : State where
  n := 0
  mem := []
  ip := 0
  rb := 0
  halted := false
  phase := .run
  inAttached := Config.attachedAtReset
  outAttached := Config.attachedAtReset
  inputs := []
  inputsTaken := 0
  outputs := []
  events := []

end Sys2Proof.Machine
end

