-- ==== Sys2Proof/Machine/Ops.lean ====
section
/-! DEFINITION. The named operations over memory, ports and registers: `MemRead` and `MemWrite`
(20_memory.md R54, R55), raising a fault (60_exceptions.md R240), the ports and events (00_scope.md R12),
the instruction-word fetch (40_cycle_and_operands.md R131) and reset with a Program (70_reset_and_hazards.md R270). -/

namespace Sys2Proof.Machine

/-- The outcomes of a step of this machine. -/
abbrev Out := Host.Outcome State Fault Refusal

/-- What one line of `Step` gives: a value, or a fault; with the state it leaves either way. -/
inductive Result (α : Type) where
  | ok (v : α) (s : State)
  | raised (c : Cause) (s : State)
  deriving DecidableEq, Repr

/-- Go on with the value, unless a fault was raised. -/
def Result.bind {α β : Type} (r : Result α) (k : α → State → Result β) : Result β :=
  match r with
  | .ok v s => k v s
  | .raised c s => .raised c s

/-- TAKING A FAULT (R240): `phase <- FAULTED(cause, info)`, every other piece of state exactly as it is
at that line, no event. There is no vector, no saved register and no handler, and no way back: R242. -/
def State.raise (s : State) (c : Cause) : State := { s with phase := .faulted c }

/-- Go on with the value, or take the fault: "`raise` stops the instruction at once" (R11). -/
def Result.andThen {α : Type} (r : Result α) (k : α → State → Out) : Out :=
  match r with
  | .ok v s => k v s
  | .raised c s => .next (s.raise c)

/-- The cell at an address; 0 if nothing is listed there (R40, R53). -/
def Memory.read : Memory → Nat → W64
  | [], _ => 0#64
  | (b, u) :: m, a => if b = a then u else Memory.read m a

/-- The memory with one cell changed, in canonical form: a cell that becomes 0 is not listed. -/
def Memory.write : Memory → Nat → W64 → Memory
  | [], a, v => if v = 0#64 then [] else [(a, v)]
  | (b, u) :: m, a, v =>
    if b = a then (if v = 0#64 then m else (a, v) :: m)
    else if b < a then (b, u) :: Memory.write m a v
    else if v = 0#64 then (b, u) :: m
    else (a, v) :: (b, u) :: m

/-- From address `lo` on: strictly rising, legal addresses, no cell that holds 0. -/
def Memory.wfFrom (lo : Nat) : Memory → Bool
  | [] => true
  | (a, v) :: m =>
    decide (lo ≤ a) && decide (a ≤ Config.addrMax) && !decide (v = 0#64) && Memory.wfFrom (a + 1) m

/-- The canonical form of memory. -/
def Memory.wf (m : Memory) : Bool := Memory.wfFrom 0 m

/-- The memory that holds a list of words from an address on (R270). -/
def Memory.ofWords (base : Nat) : List W64 → Memory
  | [] => []
  | w :: ws => if w = 0#64 then Memory.ofWords (base + 1) ws else (base, w) :: Memory.ofWords (base + 1) ws

/-- An address is legal: `ADDR_MIN .. ADDR_MAX` (R51, R52). -/
abbrev LegalAddr (a : Int) : Prop := 0 ≤ a ∧ a ≤ (Config.addrMax : Int)

/-- `MemRead(a, 1)` (R54); `a` is the exact integer, possibly outside `W64`. -/
def State.memRead (s : State) (a : Int) : Result W64 :=
  if LegalAddr a then .ok (s.mem.read a.toNat) s else .raised (.addressRange a) s

/-- `MemWrite(a, 1, v)` (R55). -/
def State.memWrite (s : State) (a : Int) (v : W64) : Result Unit :=
  if LegalAddr a then .ok () { s with mem := s.mem.write a.toNat v } else .raised (.addressRange a) s

/-- `ip <- ip + 1`, after a word was fetched (R22). -/
def State.advance (s : State) : State := { s with ip := s.ip + 1 }

/-- `emit(reason)` (R12, R177): the event carries the memory as it is at this moment. -/
def State.emit (s : State) (r : Reason) : State := { s with events := s.events ++ [⟨r, s.mem⟩] }

/-- The value the attached source delivers next (R35, R173): the oldest one it is known to hold, else
a free value (log 4). -/
def State.nextInput (s : State) : W64 :=
  match s.inputs with
  | v :: _ => v
  | [] => Config.inputValue s.inputsTaken

/-- The state after `InputRead()`: exactly one value taken (R35). -/
def State.inputTaken (s : State) : State :=
  { s with inputs := s.inputs.tail, inputsTaken := s.inputsTaken + 1 }

/-- `OutputWrite(v)` (R36): one value more on the output stream, if a sink is attached; else the value is
dropped (R175, decision D10). -/
def State.outputWrite (s : State) (v : W64) : State :=
  { s with outputs := if s.outAttached then s.outputs ++ [v] else s.outputs }

/-- `ip >= N`: a signed comparison with the integer `N` (R131, R135). -/
abbrev State.pastEnd (s : State) : Prop := (s.n : Int) ≤ s.ip.toInt

/-- Steps 1 and 2 of the cycle, the instruction-word fetch (R131). -/
def fetchWord (s : State) : Result W64 :=
  if s.pastEnd then .raised (.haltedAccess s.ip) s
  else (s.memRead s.ip.toInt).bind fun w t => .ok w t.advance

/-- The cell of the instruction stream at an address: a cell at or beyond `N` is never fetched (R56)
and shows as 0, which no meaning looks at (log 24). -/
def State.streamWord (s : State) (a : Nat) : W64 := if a < s.n then s.mem.read a else 0#64

/-- The instruction word just fetched and the cells of the instruction stream after it. -/
def State.window (s : State) (w : W64) : Window :=
  ⟨w, s.streamWord s.ip.toNat, s.streamWord (s.ip.toNat + 1), s.streamWord (s.ip.toNat + 2)⟩

/-- The fault a rejected instruction word raises (R84, R94, R233). -/
def rejectCause : Reject → Cause
  | .negativeWord w => .invalidOpcode w
  | .unknownOpcode w => .invalidOpcode w

/-- Reset with a Program and the two attachment choices (R270). DESIGN CHOICE (log 38): a Program longer
than `N_MAX` (R6), for which the spec gives no behaviour, is loaded whole. -/
def State.load (program : List W64) (inAtt outAtt : Bool) : State :=
  { State.reset with
    n := program.length
    mem := Memory.ofWords 0 program
    inAttached := inAtt
    outAttached := outAtt }

/-- The host gives its input source values to deliver (R35, R252). -/
def State.supply (s : State) (vs : List W64) : State := { s with inputs := s.inputs ++ vs }

/-- Where an instruction placed for the next fetch goes: `ip`, unless no four cells of a program can
stand there; then address 0 (log 7). -/
def State.fetchHome (s : State) : Nat :=
  if s.ip.toNat + 4 ≤ Config.programMax then s.ip.toNat else 0

/-- The state with a window of cells placed for the next fetch: in memory at `ip`, the program long
enough to hold them, the core between instructions (log 7). -/
def State.placeWindow (s : State) (x : Window) : State :=
  { s with
    mem := (((s.mem.write s.fetchHome x.word).write (s.fetchHome + 1) x.p1).write
      (s.fetchHome + 2) x.p2).write (s.fetchHome + 3) x.p3
    n := max s.n (s.fetchHome + 4)
    ip := BitVec.ofNat 64 s.fetchHome
    halted := false
    phase := .run }

end Sys2Proof.Machine
end

