-- ==== Sys2Proof/Machine/Flags.lean ====
section
/-! DEFINITION. What the ALU computes (41_arithmetic.md R162 to R166, 44_compare.md R210 to R212, 43_jumps.md
R204) and the only flag (10_state.md R25). The machine has no condition codes: no operation here sets
one. -/

namespace Sys2Proof.Machine

/-- The ALU adder of `add` and `rbs`: `wrap64` of the exact sum (R160, R163, R220; decision D5). -/
def aluAdd (a b : W64) : W64 := wrap64 (a.toInt + b.toInt)

/-- The multiplier of `mul`: `wrap64` of the exact product (R161, R163; decision D5). -/
def aluMul (a b : W64) : W64 := wrap64 (a.toInt * b.toInt)

/-- Signed less-than, as the word 1 or 0 (R210, R212). -/
def aluLt (a b : W64) : W64 := if a.toInt < b.toInt then 1#64 else 0#64

/-- Equality of all 64 bits, as the word 1 or 0 (R211, R212). -/
def aluEq (a b : W64) : W64 := if a = b then 1#64 else 0#64

/-- The zero test of the jumps, on the full 64-bit value (R204). -/
def isZero (a : W64) : Bool := decide (a = 0#64)

/-- `halted <- 1; phase <- HALTED` (R221): the only write of the only flag. -/
def State.setHalted (s : State) : State := { s with halted := true, phase := .halted }

end Sys2Proof.Machine
end

