-- ==== Sys2Proof/Machine/Operands.lean ====
section
/-! DEFINITION. Step 4 of the cycle: every operand form (40_cycle_and_operands.md R134 to R139). Each
parameter is processed completely before the next one's word is fetched (R134): word fetch (R135), mode
check (R136), then resolution (R137) or recording (R138). -/

namespace Sys2Proof.Machine

/-- The parameter-word fetch (R135): a fault if `ip >= N`, else the word, and `ip` moves past it. The
word is the one the decoder read from this place of the instruction stream. -/
def nextWord (p : Param) (s : State) : Result W64 :=
  if s.pastEnd then .raised (.incompleteInstruction s.ip) s else .ok p.word s.advance

/-- Parameter `k`, a value parameter, processed (R135, R136, R137): position reads the cell the word
names, immediate is the word, relative reads the cell `rb + word`, the exact sum; a mode digit 3 .. 9 is
InvalidParamModeError. -/
def takeValue (k : Nat) (p : Param) (s : State) : Result W64 :=
  (nextWord p s).bind fun w t =>
    match p.mode with
    | .position => t.memRead w.toInt
    | .immediate => .ok w t
    | .relative => t.memRead (t.rb.toInt + w.toInt)
    | .reserved d => .raised (.invalidParamMode k (Mode.reserved d).digit) t

/-- Parameter `k`, a destination parameter, processed (R135, R136, R138): its mode and word are kept, no
cell is touched; immediate mode (decision D3) and the digits 3 .. 9 are InvalidParamModeError. -/
def takeDest (k : Nat) (p : Param) (s : State) : Result Dest :=
  (nextWord p s).bind fun w t =>
    match p.mode with
    | .position => .ok ⟨.position, w⟩ t
    | .immediate => .raised (.invalidParamMode k Mode.immediate.digit) t
    | .relative => .ok ⟨.relative, w⟩ t
    | .reserved d => .raised (.invalidParamMode k (Mode.reserved d).digit) t

/-- `DestAddr(m, p)` (R139): the word, or the exact sum `rb + word`. -/
def destAddr (d : Dest) (rb : W64) : Int :=
  match d.mode with
  | .position => d.word.toInt
  | .relative => rb.toInt + d.word.toInt

/-- `Store(dest, v)` (R139): the single write, with the `rb` of this moment (decision D25). -/
def store (d : Dest) (v : W64) (s : State) : Result Unit := s.memWrite (destAddr d s.rb) v

/-- Format VVD (R91): two values, a destination, then the write of a function of the values. -/
def binaryToMemory (f : W64 → W64 → W64) (a b d : Param) (s : State) : Out :=
  (takeValue 1 a s).andThen fun v1 s1 =>
    (takeValue 2 b s1).andThen fun v2 s2 =>
      (takeDest 3 d s2).andThen fun dst s3 =>
        (store dst (f v1 v2) s3).andThen fun _ s4 => .next s4

/-- Format VV (R91): two values, then an effect. Both are resolved whatever the effect is (R200). -/
def withTwoValues (a b : Param) (s : State) (k : W64 → W64 → State → State) : Out :=
  (takeValue 1 a s).andThen fun v1 s1 =>
    (takeValue 2 b s1).andThen fun v2 s2 => .next (k v1 v2 s2)

/-- Format V (R91): one value, then an effect. -/
def withOneValue (a : Param) (s : State) (k : W64 → State → State) : Out :=
  (takeValue 1 a s).andThen fun v s1 => .next (k v s1)

end Sys2Proof.Machine
end

