-- ==== Sys2Proof/Machine/Arith.lean ====
section
/-! DEFINITION. `add` and `mul` (41_arithmetic.md R160, R161). A meaning starts with `ip` past the
instruction word (R132). -/

namespace Sys2Proof.Machine

/-- `add` (R160): dest := wrap64(a + b). -/
def execAdd (a b dest : Param) (s : State) : Out := binaryToMemory aluAdd a b dest s

/-- `mul` (R161): dest := wrap64(a * b). -/
def execMul (a b dest : Param) (s : State) : Out := binaryToMemory aluMul a b dest s

end Sys2Proof.Machine
end

