-- ==== Sys2Proof/Machine/BaseHalt.lean ====
section
/-! DEFINITION. `rbs` and `end` (45_relbase_halt.md R220, R221). -/

namespace Sys2Proof.Machine

/-- `rbs` (R220): rb := wrap64(rb + a); the operand is resolved with the old `rb`. -/
def execRbs (a : Param) (s : State) : Out :=
  withOneValue a s fun v t => { t with rb := aluAdd t.rb v }

/-- `end` (R221): halted := 1, phase HALTED, and the `Halted` event with the final memory. -/
def execHalt (s : State) : Out := .next (s.setHalted.emit .halted)

end Sys2Proof.Machine
end

