-- ==== Sys2Proof/Machine/Compare.lean ====
section
/-! DEFINITION. `lt` and `eq` (44_compare.md R210, R211). -/

namespace Sys2Proof.Machine

/-- `lt` (R210): dest := 1 if a < b, signed, else 0. -/
def execLt (a b dest : Param) (s : State) : Out := binaryToMemory aluLt a b dest s

/-- `eq` (R211): dest := 1 if a = b else 0. -/
def execEq (a b dest : Param) (s : State) : Out := binaryToMemory aluEq a b dest s

end Sys2Proof.Machine
end

