-- ==== Sys2Proof/Machine/Io.lean ====
section
/-! DEFINITION. `in` and `out` (42_io.md R170, R171), each in two halves with a suspension between them
(40_cycle_and_operands.md R140, R141). The first half is the meaning the dispatcher calls; the second runs at
the next step, from the latched operand. -/

namespace Sys2Proof.Machine

/-- `in`, first half (R170, R140): the destination descriptor is latched, AboutToInput emitted. -/
def execInp (dest : Param) (s : State) : Out :=
  (takeDest 1 dest s).andThen fun d t => .next ({ t with phase := .inWait d }.emit .aboutToInput)

/-- `in`, second half (R170, R141): without a source, InputNotConnectedError and nothing taken
(decision D24); else one value taken, stored, AfterInput emitted. A bad destination address faults after
the value was taken (decision D25). -/
def finishInp (d : Dest) (s : State) : Out :=
  if s.inAttached then
    (store d s.nextInput s.inputTaken).andThen fun _ t =>
      .next ({ t with phase := .run }.emit .afterInput)
  else .next (s.raise .inputNotConnected)

/-- `out`, first half (R171, R140): the value is resolved and latched, AboutToOutput emitted. -/
def execOut (a : Param) (s : State) : Out :=
  withOneValue a s fun v t => { t with phase := .outWait v }.emit .aboutToOutput

/-- `out`, second half (R171, R141): the value goes to the sink, or is dropped where none is attached
(R175, decision D10); AfterOutput emitted. -/
def finishOut (v : W64) (s : State) : Out :=
  .next ({ s.outputWrite v with phase := .run }.emit .afterOutput)

end Sys2Proof.Machine
end

