-- ==== Sys2Proof/Machine/Jump.lean ====
section
/-! DEFINITION. `tjmp` and `fjmp` (43_jumps.md R200, R201). The target is the resolved second value, loaded
whole and unchecked (R203, decision D20). -/

namespace Sys2Proof.Machine

/-- `tjmp` (R200): ip := addr if a is not 0. -/
def execTjmp (a addr : Param) (s : State) : Out :=
  withTwoValues a addr s fun v t u => if isZero v then u else { u with ip := t }

/-- `fjmp` (R201): ip := addr if a is 0. -/
def execFjmp (a addr : Param) (s : State) : Out :=
  withTwoValues a addr s fun v t u => if isZero v then { u with ip := t } else u

end Sys2Proof.Machine
end

