-- ==== Sys2Proof/Machine/Dispatch.lean ====
section
/-! DEFINITION. The dispatcher (40_cycle_and_operands.md R133, R141): one arm per instruction. -/

namespace Sys2Proof.Machine

/-- Steps 4 to 7 of the cycle for one decoded instruction, from a state whose `ip` is past the
instruction word (R132); for `in` and `out`, up to the suspension (R140). -/
def exec (i : Instr) (s : State) : Host.Outcome State Fault Refusal :=
  match i with
  | .add a b dest => Sys2Proof.Machine.execAdd a b dest s
  | .mul a b dest => Sys2Proof.Machine.execMul a b dest s
  | .inp dest => Sys2Proof.Machine.execInp dest s
  | .out a => Sys2Proof.Machine.execOut a s
  | .tjmp a addr => Sys2Proof.Machine.execTjmp a addr s
  | .fjmp a addr => Sys2Proof.Machine.execFjmp a addr s
  | .lt a b dest => Sys2Proof.Machine.execLt a b dest s
  | .eq a b dest => Sys2Proof.Machine.execEq a b dest s
  | .rbs a => Sys2Proof.Machine.execRbs a s
  | .halt => Sys2Proof.Machine.execHalt s

end Sys2Proof.Machine
end

