-- ==== Sys2Proof/Machine/Step.lean ====
section
/-! DEFINITION. `Step`, the transition function of one core (40_cycle_and_operands.md R143): a whole cycle of
a plain instruction, or one half of an `in` or `out`; no step in a terminal phase. -/

namespace Sys2Proof.Machine

/-- The cycle in phase RUN: fetch (R131), decode (R132), then the instruction's meaning. -/
def cycle (s : State) : Host.Outcome State Fault Refusal :=
  (fetchWord s).andThen fun w t =>
    match decode (t.window w) with
    | .ok i => exec i t
    | .error e => .next (t.raise (rejectCause e))

/-- One step (R143). -/
def step (s : State) : Host.Outcome State Fault Refusal :=
  match s.phase with
  | .run => cycle s
  | .inWait d => finishInp d s
  | .outWait v => finishOut v s
  | .halted => .fault .coreHalted
  | .faulted c => .fault (.coreFaulted c)

/-- The state with the instruction whose bits are `w` placed where `step` fetches next (log 7). -/
def State.withFetchWord (s : State) (nbits w : Nat) : State := s.placeWindow (tableWindow nbits w)

end Sys2Proof.Machine
end

