-- ==== Sys2Proof/Machine/Loader.lean ====
section
/-! DEFINITION. The loader's text form of a Program (30_encoding.md R100): signed decimal integers with commas
between them. It belongs to the loader, not to the core. -/

namespace Sys2Proof.Machine

/-- Why the loader rejects a text (R100, decision D26). -/
inductive LoadError where
  /-- No token at all. -/
  | emptyText
  /-- A token that is empty or no decimal integer. -/
  | badToken
  /-- An integer outside `W64`. -/
  | outOfRange
  deriving DecidableEq, Repr

/-- A text cut at every separator. -/
def splitAtChar (sep : Char) : List Char → List (List Char)
  | [] => [[]]
  | c :: cs =>
    if c = sep then [] :: splitAtChar sep cs
    else
      match splitAtChar sep cs with
      | [] => [[c]]
      | t :: ts => (c :: t) :: ts

/-- The characters trimmed from a token's ends: space, tab, line feed, carriage return (log 30). -/
def isBlankChar (c : Char) : Bool := c = ' ' || c = '\t' || c = '\n' || c = '\r'

/-- A token without blanks at its ends. -/
def trimBlanks (cs : List Char) : List Char :=
  ((cs.dropWhile isBlankChar).reverse.dropWhile isBlankChar).reverse

/-- The value of a decimal digit. -/
def digitValue (c : Char) : Option Nat :=
  if '0' ≤ c ∧ c ≤ '9' then some (c.toNat - '0'.toNat) else none

/-- Decimal digits read after the digits that made `acc`. -/
def parseDigits : Nat → List Char → Option Nat
  | acc, [] => some acc
  | acc, c :: cs =>
    match digitValue c with
    | some d => parseDigits (acc * 10 + d) cs
    | none => none

/-- A decimal integer: digits, at least one, with `-` before them if negative (R100). DESIGN CHOICE (log 30
for the loader, log 41 for the assembler): no plus sign, leading zeros and `-0` accepted. -/
def parseInt : List Char → Option Int
  | [] => none
  | '-' :: [] => none
  | '-' :: c :: cs => (parseDigits 0 (c :: cs)).map fun n => -(n : Int)
  | c :: cs => (parseDigits 0 (c :: cs)).map fun n => (n : Int)

/-- The integers of `W64` (R7). -/
abbrev InW64 (z : Int) : Prop := -9223372036854775808 ≤ z ∧ z ≤ 9223372036854775807

/-- One token as a word. -/
def parseToken (cs : List Char) : Except LoadError W64 :=
  match parseInt (trimBlanks cs) with
  | none => .error .badToken
  | some z => if InW64 z then .ok (wrap64 z) else .error .outOfRange

/-- Every token as a word, the first error reported. -/
def parseTokens : List (List Char) → Except LoadError (List W64)
  | [] => .ok []
  | t :: ts =>
    match parseToken t with
    | .error e => .error e
    | .ok w =>
      match parseTokens ts with
      | .error e => .error e
      | .ok ws => .ok (w :: ws)

/-- The Program of a text (R100): token `i` is the word at address `i`. -/
def parseProgram (text : List Char) : Except LoadError (List W64) :=
  if trimBlanks text = [] then .error .emptyText else parseTokens (splitAtChar ',' text)

end Sys2Proof.Machine
end

