-- ==== Sys2Proof/Machine/Assembler.lean ====
section
/-! DEFINITION. The assembler of 30_encoding.md Part C (R101 to R115): a pure function from source lines to a
Program. It is toolchain, not hardware (00_scope.md R5); no rule of the core depends on it. -/

namespace Sys2Proof.Machine

/-- A name of the source text. -/
abbrev Ident := List Char

/-- Why a text is no program (R112, and the rejections of R114, decision D22). -/
inductive AsmError where
  /-- An invalid instruction line: unknown mnemonic, bad argument, wrong number of arguments. -/
  | invalidInstruction
  /-- A malformed `var` line. -/
  | malformedVariable
  /-- A malformed label line. -/
  | malformedLabel
  /-- `UndeclaredVariableError` (R112). -/
  | undeclaredVariable (name : Ident)
  /-- `InvalidLabelError` (R112). -/
  | invalidLabel (name : Ident)
  /-- A literal outside `W64`. -/
  | literalOutOfRange
  /-- A variable declared after an instruction line (R114). -/
  | variableAfterCode (name : Ident)
  /-- An identifier as a variable's initial value (R104, R114). -/
  | identifierInitialValue (name : Ident)
  /-- A label or a variable declared twice (R114). -/
  | duplicateName (name : Ident)
  deriving DecidableEq, Repr

/-- A symbol of pass 1 (R108). An `instruction` carries its word with the mode digits already set
(R106, R111). -/
inductive Symbol where
  | literal (v : W64)
  | labelDecl (name : Ident)
  | labelRef (name : Ident)
  | varDecl (name : Ident) (v : W64)
  | varRef (name : Ident)
  | instruction (word : Nat)
  deriving DecidableEq, Repr

/-- A line without its comment (R102). -/
def stripComment (line : List Char) : List Char := line.takeWhile fun c => !(c = '#')

/-- What separates the tokens of a source line: spaces and tabs, nothing else (R102). -/
def isAsmBlank (c : Char) : Bool := c = ' ' || c = '\t'

/-- The tokens of a line: runs of characters between one or more spaces or tabs (R102). -/
def tokens (line : List Char) : List (List Char) :=
  (splitAtChar ' ' (line.map fun c => if isAsmBlank c then ' ' else c)).filter fun t => !t.isEmpty

/-- A letter or an underscore. -/
def isIdentStart (c : Char) : Bool :=
  ('a' ≤ c && c ≤ 'z') || ('A' ≤ c && c ≤ 'Z') || c = '_'

/-- An identifier: a letter or underscore, then letters, digits, underscores (log 31: `IDENT` is
open, decision D22). -/
def isIdent : List Char → Bool
  | [] => false
  | c :: cs => isIdentStart c && cs.all fun d => isIdentStart d || ('0' ≤ d && d ≤ '9')

/-- The mnemonics (R105). -/
def Opcode.mnemonic : Opcode → List Char
  | .add => ['a', 'd', 'd']
  | .mul => ['m', 'u', 'l']
  | .inp => ['i', 'n']
  | .out => ['o', 'u', 't']
  | .tjmp => ['t', 'j', 'm', 'p']
  | .fjmp => ['f', 'j', 'm', 'p']
  | .lt => ['l', 't']
  | .eq => ['e', 'q']
  | .rbs => ['r', 'b', 's']
  | .halt => ['e', 'n', 'd']

/-- The row with a mnemonic; case-sensitive (R102). -/
def Opcode.ofMnemonic (t : List Char) : Option Opcode :=
  Opcode.all.find? fun o => Opcode.mnemonic o == t

/-- A literal or an initial value as a word. DESIGN CHOICE (log 40): one outside `W64`, for which the spec
has a rule in the loader only (D26), is rejected. -/
def literalWord (z : Int) : Except AsmError W64 :=
  if InW64 z then .ok (wrap64 z) else .error .literalOutOfRange

/-- A value argument and the mode digit it sets (R106). The form of a literal integer is a DESIGN CHOICE
(log 41). -/
def valueArg (t : List Char) : Except AsmError (Nat × Symbol) :=
  match t with
  | '@' :: name => if isIdent name then .ok (1, .labelRef name) else .error .invalidInstruction
  | _ =>
    match parseInt t with
    | some z => (literalWord z).map fun v => (1, .literal v)
    | none => if isIdent t then .ok (0, .varRef t) else .error .invalidInstruction

/-- The arguments of a line, one token for a value parameter, `->` and a variable name for a
destination parameter (R105, R107): the sum of the mode digits with weights 10^j and up, and the
argument symbols. -/
def parseArgs : Nat → List Kind → List (List Char) → Except AsmError (Nat × List Symbol)
  | _, [], [] => .ok (0, [])
  | _, [], _ :: _ => .error .invalidInstruction
  | j, .value :: ks, t :: ts =>
    match valueArg t with
    | .error e => .error e
    | .ok (m, x) =>
      match parseArgs (j + 1) ks ts with
      | .error e => .error e
      | .ok (w, xs) => .ok (m * 10 ^ j + w, x :: xs)
  | j, .destination :: ks, ['-', '>'] :: name :: ts =>
    if isIdent name then
      match parseArgs (j + 1) ks ts with
      | .error e => .error e
      | .ok (w, xs) => .ok (w, .varRef name :: xs)
    else .error .invalidInstruction
  | _, .value :: _, [] => .error .invalidInstruction
  | _, .destination :: _, _ => .error .invalidInstruction

/-- A variable's initial value (R104, R114). The form of the integer is a DESIGN CHOICE (log 41). -/
def initialValue (t : List Char) : Except AsmError W64 :=
  match parseInt t with
  | some z => literalWord z
  | none => if isIdent t then .error (.identifierInitialValue t) else .error .malformedVariable

/-- The symbols of one line (R102 to R108); a blank line has none. -/
def lineSymbols (line : List Char) : Except AsmError (List Symbol) :=
  match tokens (stripComment line) with
  | [] => .ok []
  | t :: args =>
    if t = ['v', 'a', 'r'] then
      match args with
      | [name] => if isIdent name then .ok [.varDecl name 0] else .error .malformedVariable
      | [name, ['='], v] =>
        if isIdent name then (initialValue v).map fun w => [.varDecl name w]
        else .error .malformedVariable
      | _ => .error .malformedVariable
    else
      match t.reverse with
      | ':' :: r =>
        if args = [] ∧ isIdent r.reverse = true then .ok [.labelDecl r.reverse]
        else .error .malformedLabel
      | _ =>
        match Opcode.ofMnemonic t with
        | none => .error .invalidInstruction
        | some o =>
          (parseArgs 2 o.kinds args).map fun (w, xs) => .instruction (o.code + w) :: xs

/-- Pass 1 (R108): the symbols of all lines, in order. -/
def passOne : List (List Char) → Except AsmError (List Symbol)
  | [] => .ok []
  | l :: ls =>
    match lineSymbols l with
    | .error e => .error e
    | .ok xs =>
      match passOne ls with
      | .error e => .error e
      | .ok ys => .ok (xs ++ ys)

/-- The names declared so far, with their offsets; labels and variables have separate name spaces
(R114). -/
structure SymbolTable where
  labels : List (Ident × Nat)
  vars : List (Ident × Nat)
  deriving DecidableEq, Repr

/-- The offset of a name. -/
def lookupName (name : Ident) : List (Ident × Nat) → Option Nat
  | [] => none
  | (n, o) :: rest => if n = name then some o else lookupName name rest

/-- Offsets (R109): every symbol but a label declaration takes one. Rejects a name declared twice and a
variable after code (R114). DESIGN CHOICE (log 39): a label after the last emitted word is accepted and
names the address just past the program (R103 is silent). -/
def offsets : List Symbol → Nat → Bool → SymbolTable → Except AsmError SymbolTable
  | [], _, _, tab => .ok tab
  | .labelDecl name :: xs, o, code, tab =>
    match lookupName name tab.labels with
    | some _ => .error (.duplicateName name)
    | none => offsets xs o code { tab with labels := tab.labels ++ [(name, o)] }
  | .varDecl name _ :: xs, o, code, tab =>
    if code then .error (.variableAfterCode name)
    else
      match lookupName name tab.vars with
      | some _ => .error (.duplicateName name)
      | none => offsets xs (o + 1) code { tab with vars := tab.vars ++ [(name, o)] }
  | .instruction _ :: xs, o, _, tab => offsets xs (o + 1) true tab
  | .literal _ :: xs, o, code, tab => offsets xs (o + 1) code tab
  | .labelRef _ :: xs, o, code, tab => offsets xs (o + 1) code tab
  | .varRef _ :: xs, o, code, tab => offsets xs (o + 1) code tab

/-- Pass 2 (R111): one word for every symbol but a label declaration; `jump` is the jump offset. -/
def passTwo (tab : SymbolTable) (jump : Nat) : List Symbol → Except AsmError (List W64)
  | [] => .ok []
  | .labelDecl _ :: xs => passTwo tab jump xs
  | .literal v :: xs => (passTwo tab jump xs).map fun ws => v :: ws
  | .varDecl _ v :: xs => (passTwo tab jump xs).map fun ws => v :: ws
  | .instruction w :: xs => (passTwo tab jump xs).map fun ws => BitVec.ofNat 64 w :: ws
  | .labelRef name :: xs =>
    match lookupName name tab.labels with
    | none => .error (.invalidLabel name)
    | some o => (passTwo tab jump xs).map fun ws => BitVec.ofNat 64 (o + jump) :: ws
  | .varRef name :: xs =>
    match lookupName name tab.vars with
    | none => .error (.undeclaredVariable name)
    | some o => (passTwo tab jump xs).map fun ws => BitVec.ofNat 64 (o + jump) :: ws

/-- The header (R110, decision D21): `tjmp [0], #(3+V)` if any variable was declared. -/
def asmHeader (nVars : Nat) : List W64 :=
  if nVars = 0 then [] else [1005, 0, BitVec.ofNat 64 (3 + nVars)]

/-- `assemble(lines)` (R101). -/
def assemble (source : List (List Char)) : Except AsmError (List W64) :=
  match passOne source with
  | .error e => .error e
  | .ok xs =>
    match offsets xs 0 false ⟨[], []⟩ with
    | .error e => .error e
    | .ok tab =>
      (passTwo tab (asmHeader tab.vars.length).length xs).map fun ws =>
        asmHeader tab.vars.length ++ ws

end Sys2Proof.Machine
end

