-- ==== Sys2Proof/Machine/Reference.lean ====
section
/-! DEFINITION. `Step` once more, written line by line as 40_cycle_and_operands.md R143 prints it: every
parameter word fetched from memory through `ip` when its parameter is processed, kinds and digits as
numbers. `Machine.step` decodes the whole instruction first; that the two agree is an obligation. -/

namespace Sys2Proof.Machine

/-- `Resolve(m, p)` (R137), `m` already checked to be 0, 1 or 2. -/
def refResolve (m : Nat) (p : W64) (s : State) : Result W64 :=
  if m = 0 then s.memRead p.toInt
  else if m = 1 then .ok p s
  else s.memRead (s.rb.toInt + p.toInt)

/-- What the parameter loop has collected: the values in order and the destination `(m, p)`. -/
structure RefParams where
  values : List W64
  dest : Nat × W64
  deriving DecidableEq, Repr

/-- `for k in 1 .. arity` (R143): `kinds` are those of the parameters still to come, `k` the number of
the first of them. -/
def refParams (w : W64) : List Kind → Nat → RefParams → State → Result RefParams
  | [], _, acc, s => .ok acc s
  | kind :: rest, k, acc, s =>
    if s.pastEnd then .raised (.incompleteInstruction s.ip) s
    else
      (s.memRead s.ip.toInt).bind fun p s1 =>
        let m := modeDigit w k
        let s2 := s1.advance
        if 2 < m then .raised (.invalidParamMode k m) s2
        else
          match kind with
          | .value =>
            (refResolve m p s2).bind fun v s3 =>
              refParams w rest (k + 1) { acc with values := acc.values ++ [v] } s3
          | .destination =>
            if m = 1 then .raised (.invalidParamMode k m) s2
            else refParams w rest (k + 1) { acc with dest := (m, p) } s2

/-- `Store((m, p), v)` (R139) and the end of a plain cycle. -/
def refStore (d : Nat × W64) (v : W64) (s : State) : Out :=
  (s.memWrite (if d.1 = 0 then d.2.toInt else s.rb.toInt + d.2.toInt) v).andThen fun _ t => .next t

/-- The latched descriptor of `IN_WAIT(m, p)`. -/
def refLatch (d : Nat × W64) : Dest :=
  ⟨if d.1 = 0 then .position else .relative, d.2⟩

/-- `case op of` (R143), by opcode number. -/
def refEffect (op : Nat) (x : RefParams) (s : State) : Out :=
  let v1 := x.values.getD 0 0#64
  let v2 := x.values.getD 1 0#64
  if op = 1 then refStore x.dest (wrap64 (v1.toInt + v2.toInt)) s
  else if op = 2 then refStore x.dest (wrap64 (v1.toInt * v2.toInt)) s
  else if op = 3 then .next ({ s with phase := .inWait (refLatch x.dest) }.emit .aboutToInput)
  else if op = 4 then .next ({ s with phase := .outWait v1 }.emit .aboutToOutput)
  else if op = 5 then .next (if v1 ≠ 0#64 then { s with ip := v2 } else s)
  else if op = 6 then .next (if v1 = 0#64 then { s with ip := v2 } else s)
  else if op = 7 then refStore x.dest (if v1.toInt < v2.toInt then 1#64 else 0#64) s
  else if op = 8 then refStore x.dest (if v1.toInt = v2.toInt then 1#64 else 0#64) s
  else if op = 9 then .next { s with rb := wrap64 (s.rb.toInt + v1.toInt) }
  else .next ({ s with halted := true, phase := .halted }.emit .halted)

/-- `ISET[op]` (R92): the kinds of the parameters, by opcode number. -/
def refKinds (op : Nat) : Option (List Kind) :=
  if op = 1 ∨ op = 2 ∨ op = 7 ∨ op = 8 then some [.value, .value, .destination]
  else if op = 3 then some [.destination]
  else if op = 4 ∨ op = 9 then some [.value]
  else if op = 5 ∨ op = 6 then some [.value, .value]
  else if op = 99 then some []
  else none

/-- `Step(core)` (R143). -/
def refStep (s : State) : Out :=
  match s.phase with
  | .run =>
    if s.pastEnd then .next (s.raise (.haltedAccess s.ip))
    else
      (s.memRead s.ip.toInt).andThen fun w s1 =>
        let s2 := s1.advance
        if w.toInt < 0 then .next (s2.raise (.invalidOpcode w))
        else
          match refKinds (w.toNat % 100) with
          | none => .next (s2.raise (.invalidOpcode w))
          | some kinds =>
            (refParams w kinds 1 ⟨[], (0, 0)⟩ s2).andThen fun x s3 => refEffect (w.toNat % 100) x s3
  | .inWait d =>
    if s.inAttached = false then .next (s.raise .inputNotConnected)
    else
      (s.inputTaken.memWrite
          (if d.mode = .position then d.word.toInt else s.inputTaken.rb.toInt + d.word.toInt)
          s.nextInput).andThen
        fun _ t => .next ({ t with phase := .run }.emit .afterInput)
  | .outWait v =>
    if s.outAttached = true then
      .next ({ s with outputs := s.outputs ++ [v], phase := .run }.emit .afterOutput)
    else .next ({ s with phase := .run }.emit .afterOutput)
  | .halted => .fault .coreHalted
  | .faulted c => .fault (.coreFaulted c)

end Sys2Proof.Machine
end

