-- ==== Sys2Proof/Machine/Resume.lean ====
section
/-! DEFINITION. The host's way to advance a core: `Resume` (42_io.md R178) and the single-shot `run` (R184,
60_exceptions.md R256), both under fuel (R182, R285). -/

namespace Sys2Proof.Machine

/-- What one `Resume` returns (R178). -/
inductive ResumeResult where
  /-- The next suspension event. -/
  | event (e : Event)
  /-- A fault was raised. -/
  | fault (c : Cause)
  /-- The core had ended before: no step (R183). -/
  | ended
  /-- The fuel ran out; the core has no watchdog of its own (R182). Safe: says nothing (log 27). -/
  | outOfFuel
  deriving DecidableEq, Repr

/-- The run has ended, properly or badly (R183, R283). -/
def State.ended (s : State) : Bool :=
  match s.phase with
  | .halted => true
  | .faulted _ => true
  | .run => false
  | .inWait _ => false
  | .outWait _ => false

/-- What the step from `s` to `t` gives the host: the fault it raised or the event it emitted, if it
did either. -/
def stepReport (s t : State) : Option ResumeResult :=
  match t.phase with
  | .faulted c => some (.fault c)
  | .halted | .run | .inWait _ | .outWait _ =>
    match t.events.drop s.events.length with
    | e :: _ => some (.event e)
    | [] => none

/-- The loop of `Resume` (R178): steps until one reports. -/
def resumeLoop : Nat → State → State × ResumeResult
  | 0, s => (s, .outOfFuel)
  | fuel + 1, s =>
    match step s with
    | .next t =>
      match stepReport s t with
      | some r => (t, r)
      | none => resumeLoop fuel t
    | .fault _ => (s, .ended)
    | .refused _ => (s, .ended)

/-- `Resume` (R178, R183). -/
def resume (fuel : Nat) (s : State) : State × ResumeResult :=
  if s.ended then (s, .ended) else resumeLoop fuel s

/-- What the single-shot `run` returns (R184): the memory of the `Halted` event, or the fault. -/
inductive RunResult where
  | finalMemory (m : Memory)
  | fault (c : Cause)
  | outOfFuel
  deriving DecidableEq, Repr

/-- Drain the event sequence (R184): at most `resumes` calls, `fuel` steps each. -/
def drain : Nat → Nat → State → RunResult
  | 0, _, _ => .outOfFuel
  | resumes + 1, fuel, s =>
    match resume fuel s with
    | (_, .event ⟨.halted, m⟩) => .finalMemory m
    | (t, .event _) => drain resumes fuel t
    | (_, .fault c) => .fault c
    | (_, .ended) => .outOfFuel
    | (_, .outOfFuel) => .outOfFuel

/-- `run(program)` (R184): reset with the program, with what the host's source will deliver, then
drain. -/
def run (resumes fuel : Nat) (program : List W64) (inAtt outAtt : Bool) (values : List W64) :
    RunResult :=
  drain resumes fuel ((State.load program inAtt outAtt).supply values)

end Sys2Proof.Machine
end

