-- ==== Sys2Proof/Machine/Network.lean ====
section
/-! DEFINITION. Several cores in a ring (60_exceptions.md R252): each core's outputs go, first in first out, to
the input queue of the next core, the last core's to the first. Which core is resumed when is the
driver's choice (R246): an argument, not state (log 29). -/

namespace Sys2Proof.Machine

/-- The cores of a ring, in order; a core's queue is its `inputs` (R252). -/
abbrev Network := List State

/-- The core waits for a value its queue does not hold: the driver must not resume it (R181, R252 d). -/
def State.blocked (s : State) : Bool :=
  match s.phase with
  | .inWait _ => s.inAttached && s.inputs.isEmpty
  | .run | .outWait _ | .halted | .faulted _ => false

/-- What became of the driver's choice of a core. -/
inductive NetworkResult where
  /-- There is no core with this number. -/
  | noSuchCore
  /-- The driver holds the core back at AboutToInput, its queue being empty. -/
  | heldBack
  /-- The core was resumed. -/
  | resumed (r : ResumeResult)
  deriving DecidableEq, Repr

/-- The values a core handed over between two states. -/
def sentBetween (s t : State) : List W64 := t.outputs.drop s.outputs.length

/-- The driver resumes core `k`: what it outputs joins the next core's queue (R252 d, e). -/
def Network.resume (fuel k : Nat) (net : Network) : Network × NetworkResult :=
  match net[k]? with
  | none => (net, .noSuchCore)
  | some s =>
    if s.blocked then (net, .heldBack)
    else
      ((net.set k (Machine.resume fuel s).1).modify ((k + 1) % net.length)
          (fun u => u.supply (sentBetween s (Machine.resume fuel s).1)),
        .resumed (Machine.resume fuel s).2)

/-- A ring of cores that all load the same program, each with the values the driver placed in its
queue first (R252 b, e). -/
def Network.load (program : List W64) (queues : List (List W64)) : Network :=
  queues.map fun q => (State.load program true true).supply q

end Sys2Proof.Machine
end

