-- ==== Sys2Proof/WellFormed.lean ====
section
/-! DEFINITION. Which instructions have only the mode digits their format allows (30_encoding.md R91):
modes 0, 1, 2 on a value parameter, modes 0, 2 on a destination parameter. An ill-formed instruction
still has a meaning: it raises InvalidParamModeError (R86, R87). -/

namespace Sys2Proof

/-- A parameter of kind `k` has an allowed mode digit (R86, R87). -/
def Param.wellFormed : Kind → Param → Bool
  | .value, ⟨.position, _⟩ => true
  | .value, ⟨.immediate, _⟩ => true
  | .value, ⟨.relative, _⟩ => true
  | .value, ⟨.reserved _, _⟩ => false
  | .destination, ⟨.position, _⟩ => true
  | .destination, ⟨.immediate, _⟩ => false
  | .destination, ⟨.relative, _⟩ => true
  | .destination, ⟨.reserved _, _⟩ => false

/-- Every parameter of the instruction has an allowed mode digit (R91). -/
def Instr.wellFormed : Instr → Bool
  | .add a b d => a.wellFormed .value && b.wellFormed .value && d.wellFormed .destination
  | .mul a b d => a.wellFormed .value && b.wellFormed .value && d.wellFormed .destination
  | .inp d => d.wellFormed .destination
  | .out a => a.wellFormed .value
  | .tjmp a t => a.wellFormed .value && t.wellFormed .value
  | .fjmp a t => a.wellFormed .value && t.wellFormed .value
  | .lt a b d => a.wellFormed .value && b.wellFormed .value && d.wellFormed .destination
  | .eq a b d => a.wellFormed .value && b.wellFormed .value && d.wellFormed .destination
  | .rbs a => a.wellFormed .value
  | .halt => true

end Sys2Proof
end

