-- ==== Sys2Proof/Safety.lean ====
section
/-! DEFINITION. The terms claims are stated in: how a run ends (70_reset_and_hazards.md R283), what an operand
is, the shape of the event sequence (42_io.md R179), and the invariant of the machine. -/

namespace Sys2Proof.Machine

/-- The run has ended properly (R283). -/
abbrev State.EndedProperly (s : State) : Prop := s.phase = .halted

/-- The run has ended badly: a fault was raised (R283). -/
def State.isFaulted (s : State) : Bool :=
  match s.phase with
  | .faulted _ => true
  | .run | .inWait _ | .outWait _ | .halted => false

/-- At least `k` more words of the program stand at `ip` and after it, in a program that could be
loaded (R26, R135). -/
abbrev State.roomFor (s : State) (k : Nat) : Prop :=
  s.ip.toInt + (k : Int) ≤ (s.n : Int) ∧ s.n ≤ Config.programMax

/-- The cell at an address, if there is such a cell (R52). -/
def State.cellAt (s : State) (a : Int) : Option W64 :=
  if LegalAddr a then some (s.mem.read a.toNat) else none

/-- The value a value parameter stands for (R85), if its mode is one of the three and the cell it
names exists. -/
def valueOf (s : State) (p : Param) : Option W64 :=
  match p.mode with
  | .position => s.cellAt p.word.toInt
  | .immediate => some p.word
  | .relative => s.cellAt (s.rb.toInt + p.word.toInt)
  | .reserved _ => none

/-- The address a value parameter reads, if its mode is position or relative (R85). -/
def readAddr (s : State) (p : Param) : Option Int :=
  match p.mode with
  | .position => some p.word.toInt
  | .immediate => none
  | .relative => some (s.rb.toInt + p.word.toInt)
  | .reserved _ => none

/-- The descriptor a destination parameter stands for (R138), if its mode is position or relative. -/
def destOf (p : Param) : Option Dest :=
  match p.mode with
  | .position => some ⟨.position, p.word⟩
  | .immediate => none
  | .relative => some ⟨.relative, p.word⟩
  | .reserved _ => none

/-- The faults an instruction with parameters can raise while its parameters are processed or its
result is written (R237 lines 4 and 6). -/
def Cause.ofOperands : Cause → Bool
  | .invalidParamMode _ _ => true
  | .incompleteInstruction _ => true
  | .addressRange _ => true
  | .haltedAccess _ => false
  | .invalidOpcode _ => false
  | .inputNotConnected => false

/-- `t` is `s` after one of those faults: only `ip` and the phase differ (R240, R241). -/
def OperandFault (s t : State) : Prop :=
  ∃ c, c.ofOperands = true ∧ t = { s with ip := t.ip, phase := .faulted c }

/-- When an instruction may raise a fault while its parameters are processed or its result is written, from
the state `s` whose `ip` is past the instruction word (R234, R235, R238): fewer words left before `N` than
it has parameters; a mode digit its parameter does not allow; an address outside 0 .. 2^63-1. -/
def Cause.fits (i : Instr) (s : State) : Cause → Prop
  | .incompleteInstruction x =>
    (s.n : Int) < s.ip.toInt + (i.opcode.arity : Int) ∧ (s.n : Int) ≤ x.toInt
  | .invalidParamMode k m =>
    ∃ (j : Nat) (p : Param) (kind : Kind), k = j + 1 ∧ i.params[j]? = some p ∧ i.opcode.kinds[j]? = some kind ∧
      p.wellFormed kind = false ∧ p.mode.digit = m
  | .addressRange a =>
    ¬ LegalAddr a ∧
      ((∃ (j : Nat) (p : Param), i.params[j]? = some p ∧ i.opcode.kinds[j]? = some Kind.value ∧
          readAddr s p = some a) ∨
        (∃ (j : Nat) (p : Param) (d : Dest), i.params[j]? = some p ∧ i.opcode.kinds[j]? = some Kind.destination ∧
          destOf p = some d ∧ destAddr d s.rb = a))
  | .haltedAccess _ => False
  | .invalidOpcode _ => False
  | .inputNotConnected => False

/-- `t` is `s` after a fault that `i` may raise there: only `ip` and the phase differ. -/
def FaultedBy (i : Instr) (s t : State) : Prop :=
  ∃ c : Cause, c.fits i s ∧ t = { s with ip := t.ip, phase := .faulted c }

/-- Every parameter of `i` could be processed: the values exist, the destination has a mode it may
have. -/
def Resolved (i : Instr) (s : State) : Prop :=
  ∀ (j : Nat) (p : Param), i.params[j]? = some p →
    (i.opcode.kinds[j]? = some Kind.value → ∃ v, valueOf s p = some v) ∧
    (i.opcode.kinds[j]? = some Kind.destination → ∃ d, destOf p = some d)

/-- The word at `ip` can be fetched: the core is between instructions and `0 <= ip < N` (R131). -/
abbrev State.canFetch (s : State) : Prop :=
  s.phase = .run ∧ 0 ≤ s.ip.toInt ∧ s.ip.toInt < (s.n : Int)

/-- The word at `ip`. -/
def State.wordAtIp (s : State) : W64 := s.mem.read s.ip.toNat

/-- Everything of the two states is the same but memory, `ip` and the phase. -/
def SameButMemory (s t : State) : Prop :=
  t = { s with mem := t.mem, ip := t.ip, phase := t.phase }

/-- Where the event sequence of R179 stands. -/
inductive EventPos where
  /-- Between instructions. -/
  | idle
  /-- After AboutToInput, before AfterInput. -/
  | awaitInput
  /-- After AboutToOutput, before AfterOutput. -/
  | awaitOutput
  /-- After Halted. -/
  | done
  deriving DecidableEq, Repr

/-- The event that may come next (R179). -/
def EventPos.after : EventPos → Reason → Option EventPos
  | .idle, .aboutToInput => some .awaitInput
  | .idle, .aboutToOutput => some .awaitOutput
  | .idle, .halted => some .done
  | .awaitInput, .afterInput => some .idle
  | .awaitOutput, .afterOutput => some .idle
  | _, _ => none

/-- A sequence of events, oldest first, from a position on. -/
def EventPos.run : EventPos → List Event → Option EventPos
  | p, [] => some p
  | p, e :: es =>
    match p.after e.reason with
    | some q => q.run es
    | none => none

/-- The position of the event sequence that a phase goes with (R176, R179). A faulted core's sequence
stops between instructions or after an AboutToInput. -/
def Phase.fits : Phase → EventPos → Bool
  | .run, q => decide (q = .idle)
  | .inWait _, q => decide (q = .awaitInput)
  | .outWait _, q => decide (q = .awaitOutput)
  | .halted, q => decide (q = .done)
  | .faulted _, q => decide (q = .idle) || decide (q = .awaitInput)

/-- The core's events so far form a prefix of R179's sequence, at the place its phase says. -/
def State.eventsOk (s : State) : Bool :=
  match EventPos.run .idle s.events with
  | some p => s.phase.fits p
  | none => false

/-- The invariant of the machine: memory in canonical form, in every snapshot too (R53, R177); a program
that could be loaded (R26); `halted = 1` exactly when the phase is HALTED (R25); the event sequence of
R179. -/
structure State.Inv (s : State) : Prop where
  memWf : s.mem.wf = true
  lengthOk : s.n ≤ Config.programMax
  haltedIff : s.halted = true ↔ s.phase = .halted
  eventsShape : s.eventsOk = true
  snapshotsWf : ∀ e ∈ s.events, e.snapshot.wf = true

/-- `t` can be reached from `s` by steps. -/
inductive Reaches : State → State → Prop
  | refl (s : State) : Reaches s s
  | tail {s t u : State} : Reaches s t → step t = .next u → Reaches s u

end Sys2Proof.Machine
end

