-- ==== Sys2Proof/Certificates/Slice0/Obligations.lean ====
section
/-! DEFINITION. The statements for the provers. A rule the spec marks as its own decision or derivation is
named in the docstring. -/

open Sys2Proof Sys2Proof.Machine

/-! ### Encoding (30_encoding.md) -/

/-- The decodings of R98's table (derived by the spec from R81 to R94), its illegal word included. -/
def Obligations.WordsOfTheSourceDecode : Prop :=
  decode ⟨1002, 4, 3, 4⟩ = .ok (.mul ⟨.position, 4⟩ ⟨.immediate, 3⟩ ⟨.position, 4⟩) ∧
  decode ⟨109, 1, 0, 0⟩ = .ok (.rbs ⟨.immediate, 1⟩) ∧
  decode ⟨204, -1, 0, 0⟩ = .ok (.out ⟨.relative, -1⟩) ∧
  decode ⟨1001, 100, 1, 100⟩ = .ok (.add ⟨.position, 100⟩ ⟨.immediate, 1⟩ ⟨.position, 100⟩) ∧
  decode ⟨1008, 100, 16, 101⟩ = .ok (.eq ⟨.position, 100⟩ ⟨.immediate, 16⟩ ⟨.position, 101⟩) ∧
  decode ⟨1006, 101, 0, 99⟩ = .ok (.fjmp ⟨.position, 101⟩ ⟨.immediate, 0⟩) ∧
  decode ⟨1102, 34915192, 34915192, 7⟩ =
    .ok (.mul ⟨.immediate, 34915192⟩ ⟨.immediate, 34915192⟩ ⟨.position, 7⟩) ∧
  decode ⟨104, 5, 99, 0⟩ = .ok (.out ⟨.immediate, 5⟩) ∧
  decode ⟨3, 9, 8, 9⟩ = .ok (.inp ⟨.position, 9⟩) ∧
  decode ⟨8, 9, 10, 9⟩ = .ok (.eq ⟨.position, 9⟩ ⟨.position, 10⟩ ⟨.position, 9⟩) ∧
  decode ⟨4, 9, 99, -1⟩ = .ok (.out ⟨.position, 9⟩) ∧
  decode ⟨99, 0, 0, 0⟩ = .ok .halt ∧
  decode ⟨2107, 1, 2, 3⟩ = .ok (.lt ⟨.immediate, 1⟩ ⟨.relative, 2⟩ ⟨.position, 3⟩) ∧
  decode ⟨1105, 1, 0, 0⟩ = .ok (.tjmp ⟨.immediate, 1⟩ ⟨.immediate, 0⟩) ∧
  decode ⟨33, 0, 0, 0⟩ = .error (.unknownOpcode 33)

/-- Decoding the cells of an instruction gives it back, whatever stands after them: all instructions, all
ten digits in every mode place, all parameter words (R95 gives the words; derived by the spec). -/
def Obligations.DecodeOfEncodeIsInstruction : Prop :=
  ∀ (i : Instr) (rest : List W64), decode (Window.ofWords (encode i ++ rest)) = .ok i

/-- R88 (decision D2): digits of weight 10^(arity+2) and above change nothing, and neither do cells after
the last parameter word. -/
def Obligations.HigherDigitsAreIgnored : Prop :=
  ∀ (x y : Window) (o : Opcode), 0 ≤ x.word.toInt → 0 ≤ y.word.toInt → x.word.toNat % 100 = o.code →
    x.word.toNat % 10 ^ (o.arity + 2) = y.word.toNat % 10 ^ (o.arity + 2) →
    (1 ≤ o.arity → x.p1 = y.p1) → (2 ≤ o.arity → x.p2 = y.p2) → (3 ≤ o.arity → x.p3 = y.p3) →
    decode x = decode y

/-- R94, with R82's ten opcodes: which instruction each opcode is, and that every other opcode raises
InvalidOpcodeError with no parameter word fetched. -/
def Obligations.OpcodeMapIsTheTable : Prop :=
  (∀ (x : Window) (c : Nat) (o : Opcode), 0 ≤ x.word.toInt → x.word.toNat % 100 = c →
    (c, o) ∈ [(1, Opcode.add), (2, .mul), (3, .inp), (4, .out), (5, .tjmp), (6, .fjmp), (7, .lt),
      (8, .eq), (9, .rbs), (99, .halt)] →
    ∃ i, decode x = .ok i ∧ i.opcode = o) ∧
  (∀ s : State, s.canFetch → 0 ≤ s.wordAtIp.toInt →
    (s.wordAtIp.toNat % 100 = 0 ∨ (10 ≤ s.wordAtIp.toNat % 100 ∧ s.wordAtIp.toNat % 100 ≤ 98)) →
    step s = .next { s with ip := s.ip + 1, phase := .faulted (.invalidOpcode s.wordAtIp) })

/-- R83: a word too short to have a digit at parameter `k`'s place has mode 0 there; so `2` has modes 0,
0, 0 and `1002` has modes 0, 1, 0. -/
def Obligations.AbsentModeDigitsArePosition : Prop :=
  (∀ (w : W64) (k : Nat), w.toNat < 10 ^ (k + 1) → Mode.ofDigit (modeDigit w k) = .position) ∧
  [1, 2, 3].map (fun k => Mode.ofDigit (modeDigit 2 k)) = [.position, .position, .position] ∧
  [1, 2, 3].map (fun k => Mode.ofDigit (modeDigit 1002 k)) = [.position, .immediate, .position]

/-- R84 (decision D1): a negative instruction word raises InvalidOpcodeError; only `ip` has moved. -/
def Obligations.NegativeWordRaisesInvalidOpcode : Prop :=
  ∀ s : State, s.canFetch → s.wordAtIp.toInt < 0 →
    step s = .next { s with ip := s.ip + 1, phase := .faulted (.invalidOpcode s.wordAtIp) }

/-! ### The cycle (40_cycle_and_operands.md) -/

/-- R232: at the start of a cycle with `ip >= N`, HaltedAccessError, and nothing else changes: no word is
fetched, no event is emitted, `halted` stays as it is. -/
def Obligations.RunningOffTheProgramRaises : Prop :=
  ∀ s : State, s.phase = .run → (s.n : Int) ≤ s.ip.toInt →
    step s = .next { s with phase := .faulted (.haltedAccess s.ip) }

/-- R131 (decision D4): an instruction-word fetch at a negative `ip` raises AddressRangeFault. -/
def Obligations.NegativeIpRaisesAddressRange : Prop :=
  ∀ s : State, s.phase = .run → s.ip.toInt < 0 →
    step s = .next { s with phase := .faulted (.addressRange s.ip.toInt) }

/-- A step runs the decoded instruction: with `ip` moved past the instruction word, `step` is `exec`
(R131, R132, R143). -/
def Obligations.StepRunsTheDecodedInstruction : Prop :=
  ∀ (s : State) (i : Instr), s.canFetch → decode (s.advance.window s.wordAtIp) = .ok i →
    step s = exec i s.advance

/-- A step runs the instruction whose cells stand at `ip` inside the program (R80, R131, R143). -/
def Obligations.StepRunsThePlacedInstruction : Prop :=
  ∀ (s : State) (i : Instr), s.canFetch → s.ip.toInt + (i.length : Int) ≤ (s.n : Int) →
    s.n ≤ Config.programMax →
    (∀ k, k < i.length → s.mem.read (s.ip.toNat + k) = (encode i).getD k 0#64) →
    step s = exec i s.advance

/-- The model's step is R143's `Step` as the spec prints it, parameter words fetched one at a time, in
every phase, for every program that could be loaded (R26). -/
def Obligations.StepAgreesWithPrintedStep : Prop :=
  ∀ s : State, s.n ≤ Config.programMax → step s = refStep s

/-- A cycle that raises no fault had all the words of its instruction inside the program (R56, decision
D6). -/
def Obligations.CompletedCycleFetchedInsideProgram : Prop :=
  ∀ s t : State, s.phase = .run → s.n ≤ Config.programMax → step s = .next t → t.isFaulted = false →
    ∃ o : Opcode, s.wordAtIp.toNat % 100 = o.code ∧ 0 ≤ s.wordAtIp.toInt ∧ 0 ≤ s.ip.toInt ∧
      s.ip.toInt + 1 + (o.arity : Int) ≤ (s.n : Int)

/-- A store to the cell `ip` points at is what the next fetch reads (R65). -/
def Obligations.StoreIsSeenByTheNextFetch : Prop :=
  ∀ (s t : State) (d : Dest) (v : W64), s.mem.wf = true → destAddr d s.rb = s.ip.toInt →
    s.ip.toInt < (s.n : Int) → store d v s = .ok () t → fetchWord t = .ok v t.advance

/-! ### Parameters (R134 to R139) -/

/-- R86: a mode digit 3 .. 9 on parameter 1, 2 or 3 raises InvalidParamModeError once that parameter's
word has been fetched and the parameters before it are processed; an instruction whose own parameters have
allowed modes never raises it. -/
def Obligations.ReservedModeDigitRaises : Prop :=
  (∀ (i : Instr) (s : State) (p : Param) (ps : List Param) (d : Fin 7), i.params = p :: ps →
    p.mode = .reserved d → s.roomFor 1 →
    exec i s = .next { s with ip := s.ip + 1, phase := .faulted (.invalidParamMode 1 (d.val + 3)) }) ∧
  (∀ (i : Instr) (s : State) (p q : Param) (ps : List Param) (d : Fin 7) (v : W64),
    i.params = p :: q :: ps → valueOf s p = some v → q.mode = .reserved d → s.roomFor 2 →
    exec i s = .next { s with ip := s.ip + 2, phase := .faulted (.invalidParamMode 2 (d.val + 3)) }) ∧
  (∀ (i : Instr) (s : State) (p q r : Param) (d : Fin 7) (v w : W64), i.params = [p, q, r] →
    valueOf s p = some v → valueOf s q = some w → r.mode = .reserved d → s.roomFor 3 →
    exec i s = .next { s with ip := s.ip + 3, phase := .faulted (.invalidParamMode 3 (d.val + 3)) }) ∧
  (∀ (i : Instr) (s t : State) (k m : Nat), i.wellFormed = true → s.isFaulted = false →
    exec i s = .next t → t.phase ≠ .faulted (.invalidParamMode k m))

/-- R87 (decision D3): immediate mode on a destination raises InvalidParamModeError, after the sources are
read and with nothing written. -/
def Obligations.ImmediateDestinationRaises : Prop :=
  (∀ (a b d : Param) (s : State) (v w : W64), s.roomFor 3 → valueOf s a = some v →
    valueOf s b = some w → d.mode = .immediate →
    ∀ i ∈ [Instr.add a b d, .mul a b d, .lt a b d, .eq a b d],
      exec i s = .next { s with ip := s.ip + 3, phase := .faulted (.invalidParamMode 3 1) }) ∧
  (∀ (d : Param) (s : State), s.roomFor 1 → d.mode = .immediate →
    exec (.inp d) s = .next { s with ip := s.ip + 1, phase := .faulted (.invalidParamMode 1 1) })

/-- R235: where parameter `k`'s word would lie at `N`, IncompleteInstructionError with `ip = N`, the
parameters before it processed, memory unchanged. -/
def Obligations.MissingParameterWordRaises : Prop :=
  (∀ (i : Instr) (s : State), i.params ≠ [] → s.ip.toInt = (s.n : Int) →
    exec i s = .next { s with phase := .faulted (.incompleteInstruction s.ip) }) ∧
  (∀ (i : Instr) (s : State) (p q : Param) (ps : List Param) (v : W64), i.params = p :: q :: ps →
    valueOf s p = some v → s.ip.toInt + 1 = (s.n : Int) → s.n ≤ Config.programMax →
    exec i s = .next { s with
      ip := s.ip + 1
      phase := .faulted (.incompleteInstruction (s.ip + 1)) }) ∧
  (∀ (i : Instr) (s : State) (p q r : Param) (v w : W64), i.params = [p, q, r] →
    valueOf s p = some v → valueOf s q = some w → s.ip.toInt + 2 = (s.n : Int) →
    s.n ≤ Config.programMax →
    exec i s = .next { s with
      ip := s.ip + 2
      phase := .faulted (.incompleteInstruction (s.ip + 2)) })

/-- R137, R166 (decision D4): a value parameter whose address, an exact sum in relative mode, is outside
0 .. 2^63-1 raises AddressRangeFault before the next parameter is looked at. -/
def Obligations.BadOperandAddressRaises : Prop :=
  (∀ (i : Instr) (s : State) (p : Param) (ps : List Param) (ks : List Kind) (a : Int),
    i.params = p :: ps → i.opcode.kinds = .value :: ks → s.roomFor 1 → readAddr s p = some a →
    ¬ LegalAddr a →
    exec i s = .next { s with ip := s.ip + 1, phase := .faulted (.addressRange a) }) ∧
  (∀ (i : Instr) (s : State) (p q : Param) (ps : List Param) (ks : List Kind) (v : W64) (a : Int),
    i.params = p :: q :: ps → i.opcode.kinds = .value :: .value :: ks → s.roomFor 2 →
    valueOf s p = some v → readAddr s q = some a → ¬ LegalAddr a →
    exec i s = .next { s with ip := s.ip + 2, phase := .faulted (.addressRange a) })

/-- R233 to R239 (partly derived by the spec, with decisions D3, D4): an instruction's own cycle either
raises a fault whose condition holds, with only `ip` and the phase changed, or has processed every
parameter; no arithmetic and no legal access faults. -/
def Obligations.EveryFaultHasItsCondition : Prop :=
  ∀ (i : Instr) (s t : State), exec i s = .next t →
    FaultedBy i s t ∨
    (Resolved i s ∧ (t.phase = s.phase ∨ (∃ d, t.phase = .inWait d) ∨ (∃ v, t.phase = .outWait v) ∨
      t.phase = .halted))

/-- R139 (decisions D4, D25): a destination address outside 0 .. 2^63-1 raises AddressRangeFault after all
reads, and nothing is written. -/
def Obligations.BadDestinationAddressRaisesLast : Prop :=
  ∀ (a b d : Param) (s : State) (v w : W64) (dst : Dest), s.roomFor 3 → valueOf s a = some v →
    valueOf s b = some w → destOf d = some dst → ¬ LegalAddr (destAddr dst s.rb) →
    ∀ i ∈ [Instr.add a b d, .mul a b d, .lt a b d, .eq a b d],
      exec i s = .next { s with
        ip := s.ip + 3
        phase := .faulted (.addressRange (destAddr dst s.rb)) }

/-! ### Results -/

/-- R160, with the overflow rule R163 (decision D5): `add` completes and writes the low 64 bits of the
exact sum; nothing else but `ip` changes. -/
def Obligations.AddStoresWrappedSum : Prop :=
  ∀ (a b d : Param) (s : State) (v w : W64) (dst : Dest), s.roomFor 3 → valueOf s a = some v →
    valueOf s b = some w → destOf d = some dst → LegalAddr (destAddr dst s.rb) →
    exec (.add a b d) s = .next { s with
      ip := s.ip + 3
      mem := s.mem.write (destAddr dst s.rb).toNat (wrap64 (v.toInt + w.toInt)) }

/-- R161, with the overflow rule R163 (decision D5): `mul` completes and writes the low 64 bits of the
exact product. -/
def Obligations.MulStoresWrappedProduct : Prop :=
  ∀ (a b d : Param) (s : State) (v w : W64) (dst : Dest), s.roomFor 3 → valueOf s a = some v →
    valueOf s b = some w → destOf d = some dst → LegalAddr (destAddr dst s.rb) →
    exec (.mul a b d) s = .next { s with
      ip := s.ip + 3
      mem := s.mem.write (destAddr dst s.rb).toNat (wrap64 (v.toInt * w.toInt)) }

/-- R210 (the conditions of its faults: decisions D3, D4, log 11, log 12): `lt` completes and writes 1 or 0
by the signed comparison; its faults are those of its operands; its encoding. -/
def Obligations.LtStoresSignedComparison : Prop :=
  (∀ (a b d : Param) (s : State) (v w : W64) (dst : Dest), s.roomFor 3 → valueOf s a = some v →
    valueOf s b = some w → destOf d = some dst → LegalAddr (destAddr dst s.rb) →
    exec (.lt a b d) s = .next { s with
      ip := s.ip + 3
      mem := s.mem.write (destAddr dst s.rb).toNat (if v.toInt < w.toInt then 1 else 0) }) ∧
  (∀ (a b d : Param) (s t : State), exec (.lt a b d) s = .next t →
    FaultedBy (.lt a b d) s t ∨ (Resolved (.lt a b d) s ∧ t.phase = s.phase)) ∧
  (∀ s : State, s.phase = .run → s.pastEnd →
    step s = .next { s with phase := .faulted (.haltedAccess s.ip) }) ∧
  (∀ x : Window, 0 ≤ x.word.toInt → x.word.toNat % 100 = 7 →
    decode x = .ok (.lt ⟨Mode.ofDigit (digit x.word.toNat 2), x.p1⟩
      ⟨Mode.ofDigit (digit x.word.toNat 3), x.p2⟩ ⟨Mode.ofDigit (digit x.word.toNat 4), x.p3⟩))

/-- R211 (the conditions of its faults: decisions D3, D4, log 11, log 12): `eq` completes and writes 1 or 0
by the equality of all 64 bits; its faults; its encoding. -/
def Obligations.EqStoresEquality : Prop :=
  (∀ (a b d : Param) (s : State) (v w : W64) (dst : Dest), s.roomFor 3 → valueOf s a = some v →
    valueOf s b = some w → destOf d = some dst → LegalAddr (destAddr dst s.rb) →
    exec (.eq a b d) s = .next { s with
      ip := s.ip + 3
      mem := s.mem.write (destAddr dst s.rb).toNat (if v = w then 1 else 0) }) ∧
  (∀ (a b d : Param) (s t : State), exec (.eq a b d) s = .next t →
    FaultedBy (.eq a b d) s t ∨ (Resolved (.eq a b d) s ∧ t.phase = s.phase)) ∧
  (∀ s : State, s.phase = .run → s.pastEnd →
    step s = .next { s with phase := .faulted (.haltedAccess s.ip) }) ∧
  (∀ x : Window, 0 ≤ x.word.toInt → x.word.toNat % 100 = 8 →
    decode x = .ok (.eq ⟨Mode.ofDigit (digit x.word.toNat 2), x.p1⟩
      ⟨Mode.ofDigit (digit x.word.toNat 3), x.p2⟩ ⟨Mode.ofDigit (digit x.word.toNat 4), x.p3⟩))

/-- R200 (target unchecked: decision D20): `tjmp` completes with `ip` the second value if the first is not
0, else past the instruction; nothing else changes. -/
def Obligations.TjmpLoadsTargetWhenNonZero : Prop :=
  ∀ (a addr : Param) (s : State) (v t : W64), s.roomFor 2 → valueOf s a = some v →
    valueOf s addr = some t →
    exec (.tjmp a addr) s = .next { s with ip := if v.toInt ≠ 0 then t else s.ip + 2 }

/-- R201 (the conditions of its faults: decision D4, log 12): `fjmp` completes with `ip` the second value
if the first is 0, else past the instruction; its faults are those of its operands; its encoding. -/
def Obligations.FjmpLoadsTargetWhenZero : Prop :=
  (∀ (a addr : Param) (s : State) (v t : W64), s.roomFor 2 → valueOf s a = some v →
    valueOf s addr = some t →
    exec (.fjmp a addr) s = .next { s with ip := if v.toInt = 0 then t else s.ip + 2 }) ∧
  (∀ (a addr : Param) (s t : State), exec (.fjmp a addr) s = .next t →
    FaultedBy (.fjmp a addr) s t ∨ (Resolved (.fjmp a addr) s ∧ t.phase = s.phase)) ∧
  (∀ s : State, s.phase = .run → s.pastEnd →
    step s = .next { s with phase := .faulted (.haltedAccess s.ip) }) ∧
  (∀ x : Window, 0 ≤ x.word.toInt → x.word.toNat % 100 = 6 →
    decode x = .ok (.fjmp ⟨Mode.ofDigit (digit x.word.toNat 2), x.p1⟩
      ⟨Mode.ofDigit (digit x.word.toNat 3), x.p2⟩))

/-- R203: a taken jump loads the second value whole, as an absolute address: the new `ip` is that value,
whatever `ip` was. -/
def Obligations.TakenJumpLoadsTheWholeTarget : Prop :=
  ∀ (a addr : Param) (s : State) (v t : W64), s.roomFor 2 → valueOf s a = some v →
    valueOf s addr = some t →
    (v ≠ 0#64 → exec (.tjmp a addr) s = .next { s with ip := t }) ∧
    (v = 0#64 → exec (.fjmp a addr) s = .next { s with ip := t })

/-- R220 (wrap: decision D5): `rbs` completes with `rb` the low 64 bits of the exact sum, the operand
resolved with the old `rb`. -/
def Obligations.RbsAddsToRelativeBase : Prop :=
  ∀ (a : Param) (s : State) (v : W64), s.roomFor 1 → valueOf s a = some v →
    exec (.rbs a) s = .next { s with ip := s.ip + 1, rb := wrap64 (s.rb.toInt + v.toInt) }

/-- R221's pseudocode, with R224: `end` sets `halted` and the phase, emits `Halted` with the final memory, changes
nothing else, and no further cycle runs; only a missing word can fault; its encoding. -/
def Obligations.EndHaltsTheRun : Prop :=
  (∀ s : State, exec .halt s = .next { s with
    halted := true
    phase := .halted
    events := s.events ++ [⟨.halted, s.mem⟩] }) ∧
  (∀ s : State, s.canFetch → 0 ≤ s.wordAtIp.toInt → s.wordAtIp.toNat % 100 = 99 →
    step s = .next { s with
      ip := s.ip + 1
      halted := true
      phase := .halted
      events := s.events ++ [⟨.halted, s.mem⟩] }) ∧
  (∀ s : State, s.phase = .run → s.pastEnd →
    step s = .next { s with phase := .faulted (.haltedAccess s.ip) }) ∧
  (∀ s t : State, s.phase = .halted → step s ≠ .next t)

/-- R170 (decisions D11, D24, D25): `in` completes in two halves: the first latches the destination and
emits AboutToInput, the second takes exactly one value, stores it and emits AfterInput. The value is the
oldest the source is known to hold, else a free value: the statement holds whatever it is. -/
def Obligations.InStoresTheNextInput : Prop :=
  ∀ (d : Param) (s : State) (dst : Dest), s.roomFor 1 → destOf d = some dst → s.inAttached = true →
    LegalAddr (destAddr dst s.rb) →
    ∃ u, exec (.inp d) s = .next u ∧
      u = { s with
        ip := s.ip + 1
        phase := .inWait dst
        events := s.events ++ [⟨.aboutToInput, s.mem⟩] } ∧
      step u = .next { s with
        ip := s.ip + 1
        phase := .run
        mem := s.mem.write (destAddr dst s.rb).toNat
          (s.inputs.headD (Config.inputValue s.inputsTaken))
        inputs := s.inputs.tail
        inputsTaken := s.inputsTaken + 1
        events := s.events ++ [⟨.aboutToInput, s.mem⟩,
          ⟨.afterInput, s.mem.write (destAddr dst s.rb).toNat
            (s.inputs.headD (Config.inputValue s.inputsTaken))⟩] }

/-- R171 (without a sink: decision D10, log 17): `out` completes in two halves: the first latches the
resolved value and emits AboutToOutput, the second hands it to the sink, or drops it where none is
attached, and emits AfterOutput; its faults are those of its operand, all in the first half; its encoding.
-/
def Obligations.OutSendsTheLatchedValue : Prop :=
  (∀ (a : Param) (s : State) (v : W64), s.roomFor 1 → valueOf s a = some v →
    exec (.out a) s = .next { s with
      ip := s.ip + 1
      phase := .outWait v
      events := s.events ++ [⟨.aboutToOutput, s.mem⟩] }) ∧
  (∀ (s : State) (v : W64), s.phase = .outWait v →
    step s = .next { s with
      phase := .run
      outputs := if s.outAttached = true then s.outputs ++ [v] else s.outputs
      events := s.events ++ [⟨.afterOutput, s.mem⟩] }) ∧
  (∀ (a : Param) (s t : State), exec (.out a) s = .next t →
    FaultedBy (.out a) s t ∨ (Resolved (.out a) s ∧ ∃ v, t.phase = .outWait v)) ∧
  (∀ s : State, s.phase = .run → s.pastEnd →
    step s = .next { s with phase := .faulted (.haltedAccess s.ip) }) ∧
  (∀ x : Window, 0 ≤ x.word.toInt → x.word.toNat % 100 = 4 →
    decode x = .ok (.out ⟨Mode.ofDigit (digit x.word.toNat 2), x.p1⟩))

/-- R170, R236 (decision D24): the second half of `in` without a source raises InputNotConnectedError
before any value is taken. -/
def Obligations.InWithoutSourceRaises : Prop :=
  ∀ (s : State) (d : Dest), s.phase = .inWait d → s.inAttached = false →
    step s = .next { s with phase := .faulted .inputNotConnected }

/-- R170 (decisions D4, D25): with a destination address outside 0 .. 2^63-1 the value is taken and lost,
and memory is unchanged. -/
def Obligations.InBadDestinationLosesTheValue : Prop :=
  ∀ (s : State) (d : Dest), s.phase = .inWait d → s.inAttached = true →
    ¬ LegalAddr (destAddr d s.rb) →
    step s = .next { s with
      phase := .faulted (.addressRange (destAddr d s.rb))
      inputs := s.inputs.tail
      inputsTaken := s.inputsTaken + 1 }

/-! ### Frames -/

/-- What `add`, `mul`, `lt` and `eq` leave unchanged in any next state: all but `ip`, the phase, and the one
cell at the destination address; the phase changes only into a fault (R61, R160, R161, R210, R211). -/
def Obligations.StoringInstructionsFrame : Prop :=
  ∀ (a b d : Param) (s t : State), ∀ i ∈ [Instr.add a b d, .mul a b d, .lt a b d, .eq a b d],
    exec i s = .next t →
    SameButMemory s t ∧ (t.phase = s.phase ∨ OperandFault s t) ∧
    (∀ dst, destOf d = some dst → ∀ x : Nat, (x : Int) ≠ destAddr dst s.rb →
      t.mem.read x = s.mem.read x) ∧
    (destOf d = none → ∀ x : Nat, t.mem.read x = s.mem.read x)

/-- What `tjmp` and `fjmp` leave unchanged: all but `ip`, and the phase if they fault (R61, R200, R201). -/
def Obligations.JumpsFrame : Prop :=
  ∀ (a addr : Param) (s t : State), ∀ i ∈ [Instr.tjmp a addr, .fjmp a addr], exec i s = .next t →
    (t = { s with ip := t.ip } ∨ OperandFault s t) ∧ ∀ x : Nat, t.mem.read x = s.mem.read x

/-- What `rbs` and `end` leave unchanged: `rbs` writes `rb` and `ip` only, `end` the halted flag, the phase
and the event sequence only; no cell changes (R61, R220, R221). -/
def Obligations.BaseAndHaltFrame : Prop :=
  (∀ (a : Param) (s t : State), exec (.rbs a) s = .next t →
    (t = { s with ip := t.ip, rb := t.rb } ∨ OperandFault s t) ∧
    ∀ x : Nat, t.mem.read x = s.mem.read x) ∧
  (∀ s t : State, exec .halt s = .next t →
    t = { s with halted := t.halted, phase := t.phase, events := t.events } ∧
    ∀ x : Nat, t.mem.read x = s.mem.read x)

/-- What `in` and `out` leave unchanged: the first halves all but `ip`, the phase and the event sequence;
the second half of `in` all but the one cell at the destination address, the input port, the phase and the
event sequence; the second half of `out` all but the output stream, the phase and the event sequence
(R61, R170, R171). -/
def Obligations.PortInstructionsFrame : Prop :=
  (∀ (p : Param) (s t : State), ∀ i ∈ [Instr.inp p, .out p], exec i s = .next t →
    t = { s with ip := t.ip, phase := t.phase, events := t.events } ∧
    ∀ x : Nat, t.mem.read x = s.mem.read x) ∧
  (∀ (d : Dest) (s t : State), s.phase = .inWait d → step s = .next t →
    t = { s with
      mem := t.mem
      inputs := t.inputs
      inputsTaken := t.inputsTaken
      phase := t.phase
      events := t.events } ∧
    ∀ x : Nat, (x : Int) ≠ destAddr d s.rb → t.mem.read x = s.mem.read x) ∧
  (∀ (v : W64) (s t : State), s.phase = .outWait v → step s = .next t →
    t = { s with outputs := t.outputs, phase := t.phase, events := t.events } ∧
    ∀ x : Nat, t.mem.read x = s.mem.read x)

/-! ### Rules of the whole machine -/

/-- Every step keeps the invariant: memory in canonical form, in the snapshots too; a loadable program;
`halted` exactly in phase HALTED (R25); the event sequence of R179, at the place the phase says. -/
def Obligations.StepKeepsTheInvariant : Prop :=
  ∀ s t : State, s.Inv → step s = .next t → t.Inv

/-- The state after reset meets the invariant. -/
def Obligations.ResetMeetsTheInvariant : Prop := State.reset.Inv

/-- So does a core loaded with any program that fits, whatever the host attaches and supplies (R270). -/
def Obligations.LoadedCoreMeetsTheInvariant : Prop :=
  ∀ (program : List W64) (inAtt outAtt : Bool) (values : List W64),
    program.length ≤ Config.programMax → ((State.load program inAtt outAtt).supply values).Inv

/-- R270, R39 (`ip`, `rb`, `halted` and `phase` are the spec's decision D9; for a Program
above `N_MAX` it is the model's choice, log 38): reset with a Program. -/
def Obligations.LoadGivesResetValues : Prop :=
  ∀ (program : List W64) (inAtt outAtt : Bool),
    let s := State.load program inAtt outAtt
    s.n = program.length ∧ (∀ a, s.mem.read a = program.getD a 0#64) ∧ s.ip = 0 ∧ s.rb = 0 ∧
      s.halted = false ∧ s.phase = .run ∧ s.inAttached = inAtt ∧ s.outAttached = outAtt ∧
      s.events = [] ∧ s.outputs = []

/-- R241 (derived by the spec): a step that raises a fault leaves everything but `ip`, the phase and the
input port as it was: memory, `rb`, the output stream and the event sequence in particular. -/
def Obligations.FaultLeavesMemoryAndOutput : Prop :=
  ∀ (s t : State) (c : Cause), step s = .next t → t.phase = .faulted c →
    t = { s with
      ip := t.ip
      phase := .faulted c
      inputs := t.inputs
      inputsTaken := t.inputsTaken } ∧
    ((∀ d, s.phase ≠ .inWait d) → t.inputs = s.inputs ∧ t.inputsTaken = s.inputsTaken)

/-- R24's last writer rule: a step changes `rb` only where the instruction at `ip` is `rbs`. -/
def Obligations.OnlyRbsWritesRelativeBase : Prop :=
  ∀ s t : State, step s = .next t → t.rb ≠ s.rb →
    s.canFetch ∧ 0 ≤ s.wordAtIp.toInt ∧ s.wordAtIp.toNat % 100 = 9

/-- R25's writer rule: a step changes `halted` only where the instruction at `ip` is `end`, and only to
1, into phase HALTED. -/
def Obligations.OnlyEndSetsHalted : Prop :=
  ∀ s t : State, step s = .next t → (t.halted ≠ s.halted ∨ t.phase = .halted) →
    s.canFetch ∧ 0 ≤ s.wordAtIp.toInt ∧ s.wordAtIp.toNat % 100 = 99 ∧ t.halted = true ∧
      t.phase = .halted

/-- R26 (decision D6) and R29 (decision D27): no step changes `N` or the attachments. -/
def Obligations.LengthAndAttachmentsNeverChange : Prop :=
  ∀ s t : State, step s = .next t →
    t.n = s.n ∧ t.inAttached = s.inAttached ∧ t.outAttached = s.outAttached

/-- R172: exactly `in` is input-class and exactly `out` output-class, and nothing else touches a port: no
instruction's own cycle does, only the second halves do, and only these two instructions lead to one. -/
def Obligations.OnlyInAndOutTouchThePorts : Prop :=
  (∀ o : Opcode, (o.opClass = .inputClass ↔ o = .inp) ∧ (o.opClass = .outputClass ↔ o = .out)) ∧
  (∀ (i : Instr) (s t : State), exec i s = .next t →
    t.inputs = s.inputs ∧ t.inputsTaken = s.inputsTaken ∧ t.outputs = s.outputs) ∧
  (∀ s t : State, step s = .next t → (t.inputs ≠ s.inputs ∨ t.inputsTaken ≠ s.inputsTaken) →
    ∃ d, s.phase = .inWait d) ∧
  (∀ s t : State, step s = .next t → t.outputs ≠ s.outputs → ∃ v, s.phase = .outWait v) ∧
  (∀ (s t : State) (d : Dest), step s = .next t → t.phase = .inWait d →
    s.canFetch ∧ s.wordAtIp.toNat % 100 = 3) ∧
  (∀ (s t : State) (v : W64), step s = .next t → t.phase = .outWait v →
    s.canFetch ∧ s.wordAtIp.toNat % 100 = 4)

/-- Every instruction answers a next state, whatever the state and the operands (R239, R240). -/
def Obligations.ExecAlwaysAnswersNext : Prop := ∀ (i : Instr) (s : State), ∃ t, exec i s = .next t

/-- A step has no next state exactly in the terminal phases, and no instruction is refused (R143, R183 with
decision D12). -/
def Obligations.StepStopsExactlyWhenEnded : Prop :=
  (∀ s : State, (∃ f, step s = .fault f) ↔ (s.phase = .halted ∨ ∃ c, s.phase = .faulted c)) ∧
  (∀ (s : State) (r : Refusal), step s ≠ .refused r)

/-- R144 (derived by the spec): outside IN_WAIT a step does not depend on what the input source holds or
has given. -/
def Obligations.StepIgnoresInputsUnlessWaiting : Prop :=
  ∀ (s t : State) (values : List W64) (taken : Nat), (∀ d, s.phase ≠ .inWait d) →
    step s = .next t →
    step { s with inputs := values, inputsTaken := taken } =
      .next { t with inputs := values, inputsTaken := taken }

/-- R144 (derived by the spec): a step does not depend on what was output or emitted before; it only
adds to it. -/
def Obligations.StepIgnoresItsHistory : Prop :=
  ∀ s t : State, step s = .next t →
    ∃ newOut newEvents, t.outputs = s.outputs ++ newOut ∧ t.events = s.events ++ newEvents ∧
      ∀ (out : List W64) (evs : List Event),
        step { s with outputs := out, events := evs } =
          .next { t with outputs := out ++ newOut, events := evs ++ newEvents }

/-! ### Memory (20_memory.md) -/

/-- R40: a read of a legal address never faults, and a cell nothing has written reads 0: every unlisted
one, and after a load every one at or beyond the program's end. -/
def Obligations.UnwrittenCellsReadZero : Prop :=
  (∀ (s : State) (a : Int), LegalAddr a → s.memRead a = .ok (s.mem.read a.toNat) s) ∧
  (∀ (m : Memory) (a : Nat), (∀ v, (a, v) ∉ m) → m.read a = 0#64) ∧
  (∀ (program : List W64) (x y : Bool) (a : Nat), program.length ≤ a →
    (State.load program x y).mem.read a = 0#64)

/-- R55, R53, R68 (the legal range is decision D4): after a write the cell holds the value, every other cell
what it held, and `N` is what it was. -/
def Obligations.StoredCellReadsBack : Prop :=
  ∀ (s t : State) (a b : Int) (v : W64), s.mem.wf = true → s.memWrite a v = .ok () t → LegalAddr b →
    t.memRead b = .ok (if b = a then v else s.mem.read b.toNat) t ∧ t.n = s.n

/-- R212, R213 (derived by the spec): of `a < b`, `a = b`, `b < a` exactly one holds, so exactly one of the
three comparison results is 1 and the others are 0. -/
def Obligations.ExactlyOneComparisonHolds : Prop :=
  ∀ a b : W64,
    (aluLt a b = 1 ∧ aluEq a b = 0 ∧ aluLt b a = 0) ∨ (aluLt a b = 0 ∧ aluEq a b = 1 ∧ aluLt b a = 0) ∨
      (aluLt a b = 0 ∧ aluEq a b = 0 ∧ aluLt b a = 1)

/-! ### The host's side (42_io.md, 60_exceptions.md) -/

/-- R178, R183 (decision D12): `Resume` of an ended core changes nothing; otherwise it returns the one next
event, or the fault with no event, or nothing yet. -/
def Obligations.ResumeReturnsTheNextEvent : Prop :=
  ∀ (fuel : Nat) (s t : State) (r : ResumeResult), resume fuel s = (t, r) →
    (r = .ended ↔ s.ended = true) ∧ (r = .ended → t = s) ∧
    (∀ e, r = .event e → t.events = s.events ++ [e] ∧ t.mem = e.snapshot ∧ t.isFaulted = false) ∧
    (∀ c, r = .fault c → t.phase = .faulted c ∧ t.events = s.events) ∧
    (r = .outOfFuel → t.events = s.events ∧ t.ended = false)

/-- R179 (derived by the spec): a `Resume` of a core inside `in` or `out` does the second half and nothing
more. -/
def Obligations.ResumeFinishesThePendingTransfer : Prop :=
  (∀ (fuel : Nat) (s : State) (d : Dest), s.phase = .inWait d → s.inAttached = true →
    LegalAddr (destAddr d s.rb) →
    ∃ t, step s = .next t ∧ t.phase = .run ∧
      resume (fuel + 1) s = (t, .event ⟨.afterInput, s.mem.write (destAddr d s.rb).toNat
        (s.inputs.headD (Config.inputValue s.inputsTaken))⟩)) ∧
  (∀ (fuel : Nat) (s : State) (v : W64), s.phase = .outWait v →
    ∃ t, step s = .next t ∧ t.phase = .run ∧
      resume (fuel + 1) s = (t, .event ⟨.afterOutput, s.mem⟩))

/-- What `Resume` returns does not depend on the fuel, once it returns (R182 has none; log 27). -/
def Obligations.MoreFuelSameResume : Prop :=
  ∀ (fuel more : Nat) (s t : State) (r : ResumeResult), resume fuel s = (t, r) → r ≠ .outOfFuel →
    resume (fuel + more) s = (t, r)

/-- R184, R256, R283: what the single-shot `run` returns is the memory of the `Halted` event of a core that
ended properly, or the fault of one that ended badly (a Program above
`N_MAX`: the model's choice, log 38). -/
def Obligations.RunReturnsTheFinalMemory : Prop :=
  ∀ (resumes fuel : Nat) (program : List W64) (inAtt outAtt : Bool) (values : List W64),
    (∀ m, run resumes fuel program inAtt outAtt values = .finalMemory m →
      ∃ t evs, Reaches ((State.load program inAtt outAtt).supply values) t ∧ t.EndedProperly ∧
        t.mem = m ∧ t.events = evs ++ [⟨.halted, m⟩]) ∧
    (∀ c, run resumes fuel program inAtt outAtt values = .fault c →
      ∃ t, Reaches ((State.load program inAtt outAtt).supply values) t ∧ t.phase = .faulted c)

/-- R252 a, e and R33 (the queue discipline is derived by the spec): resuming one core changes no other
core, but that what it output joins the end of the next core's queue, in order. -/
def Obligations.NetworkResumeTouchesOnlyTheNextQueue : Prop :=
  ∀ (fuel k : Nat) (net : Network) (s : State), net[k]? = some s → 2 ≤ net.length →
    (∀ j, j ≠ k → j ≠ (k + 1) % net.length → (Network.resume fuel k net).1[j]? = net[j]?) ∧
    (∀ u, net[(k + 1) % net.length]? = some u →
      ∃ t sent, (Network.resume fuel k net).1[k]? = some t ∧ t.outputs = s.outputs ++ sent ∧
        (Network.resume fuel k net).1[(k + 1) % net.length]? =
          some { u with inputs := u.inputs ++ sent })

/-- R110 (decision D21): a program that begins with the assembler's header for `V` variables jumps over
them in its first step. -/
def Obligations.HeaderJumpsOverTheVariables : Prop :=
  ∀ (nVars : Nat) (rest : List W64) (inAtt outAtt : Bool), 0 < nVars →
    (asmHeader nVars ++ rest).length ≤ Config.programMax → 3 + nVars ≤ Config.programMax →
    step (State.load (asmHeader nVars ++ rest) inAtt outAtt) =
      .next { State.load (asmHeader nVars ++ rest) inAtt outAtt with
        ip := BitVec.ofNat 64 (3 + nVars) }
end

