-- ==== Sys2Proof/Laws/Decode.lean ====
section
/-! SUPPORT. The small lemmas of the decoder and the encoder. -/

namespace Sys2Proof

/-- A mode digit read back (R85, R86). -/
theorem Mode.ofDigit_digit (m : Mode) : Mode.ofDigit m.digit = m := by
  cases m with
  | reserved d =>
    obtain ⟨d, hd⟩ := d
    simp [Mode.digit, Mode.ofDigit, Nat.mod_eq_of_lt hd]
  | _ => rfl

theorem Mode.digit_le (m : Mode) : m.digit ≤ 9 := by
  cases m with
  | reserved d => simp only [Mode.digit]; omega
  | _ => simp [Mode.digit]

theorem modeDigit_lt (w : W64) (k : Nat) : modeDigit w k < 10 := by
  simp only [modeDigit, digit]
  omega

/-- Each row of the table is found by its own opcode (R133). -/
theorem Opcode.ofCode_code (o : Opcode) : Opcode.ofCode o.code = some o := by cases o <;> decide

/-- A word that is not negative and has the opcode of a row decodes to that row (R97). -/
theorem decode_of_code {x : Window} {o : Opcode} (h : 0 ≤ x.word.toInt)
    (ho : x.word.toNat % 100 = o.code) :
    decode x = .ok (o.build ⟨Mode.ofDigit (modeDigit x.word 1), x.p1⟩
      ⟨Mode.ofDigit (modeDigit x.word 2), x.p2⟩ ⟨Mode.ofDigit (modeDigit x.word 3), x.p3⟩) := by
  unfold decode
  rw [if_neg (by omega), opcodeField, ho, Opcode.ofCode_code]

end Sys2Proof
end

