-- ==== Sys2Proof/Laws/Memory.lean ====
section
/-! SUPPORT. Memory: a read after a write, that writes and loads keep the canonical form, and what a loaded
memory reads as. -/

namespace Sys2Proof.Machine

@[simp] theorem Memory.read_nil (a : Nat) : Memory.read [] a = 0#64 := rfl

theorem Memory.read_cons (b : Nat) (u : W64) (m : Memory) (a : Nat) :
    Memory.read ((b, u) :: m) a = if b = a then u else Memory.read m a := rfl

@[simp] theorem Memory.wfFrom_cons (lo a : Nat) (v : W64) (m : Memory) :
    Memory.wfFrom lo ((a, v) :: m) = true ↔
      lo ≤ a ∧ a ≤ Config.addrMax ∧ v ≠ 0#64 ∧ Memory.wfFrom (a + 1) m = true := by
  simp [Memory.wfFrom, and_assoc]

theorem Memory.wfFrom_mono {lo lo' : Nat} {m : Memory} (h : lo' ≤ lo)
    (hm : Memory.wfFrom lo m = true) : Memory.wfFrom lo' m = true := by
  cases m with
  | nil => rfl
  | cons c m =>
    obtain ⟨a, v⟩ := c
    rw [Memory.wfFrom_cons] at hm ⊢
    exact ⟨by omega, hm.2⟩

/-- Below the first listed address everything reads 0. -/
theorem Memory.read_below {lo : Nat} {m : Memory} (hm : Memory.wfFrom lo m = true) {a : Nat}
    (h : a < lo) : Memory.read m a = 0#64 := by
  induction m generalizing lo with
  | nil => rfl
  | cons c m ih =>
    obtain ⟨b, u⟩ := c
    rw [Memory.wfFrom_cons] at hm
    rw [Memory.read_cons, if_neg (by omega)]
    exact ih hm.2.2.2 (by omega)

theorem Memory.read_write_from {lo : Nat} {m : Memory} (hm : Memory.wfFrom lo m = true) (a : Nat)
    (v : W64) (x : Nat) :
    Memory.read (Memory.write m a v) x = if x = a then v else Memory.read m x := by
  induction m generalizing lo with
  | nil =>
    by_cases hv : v = 0#64 <;> by_cases hx : x = a
    · simp [Memory.write, hv]
    · simp [Memory.write, hv]
    · simp [Memory.write, Memory.read_cons, hv, hx]
    · simp [Memory.write, Memory.read_cons, hv, hx, Ne.symm hx]
  | cons c m ih =>
    obtain ⟨b, u⟩ := c
    rw [Memory.wfFrom_cons] at hm
    have ih' := ih hm.2.2.2
    have below : ∀ {y}, y < b + 1 → Memory.read m y = 0#64 := Memory.read_below hm.2.2.2
    simp only [Memory.write]
    by_cases hba : b = a
    · subst hba
      by_cases hv : v = 0#64
      · by_cases hx : x = b
        · simp [hv, hx, below (Nat.lt_succ_self b)]
        · simp [hv, hx, Memory.read_cons, Ne.symm hx]
      · by_cases hx : x = b
        · simp [hv, hx, Memory.read_cons]
        · simp [hv, hx, Memory.read_cons, Ne.symm hx]
    · by_cases hlt : b < a
      · by_cases hbx : b = x
        · subst hbx
          simp [hlt, Memory.read_cons, hba]
        · simp [hba, hlt, Memory.read_cons, hbx, ih']
      · by_cases hv : v = 0#64
        · by_cases hx : x = a
          · subst hx
            simp [hba, hlt, hv, Memory.read_cons, below (show x < b + 1 by omega)]
          · simp [hba, hlt, hv, hx]
        · by_cases hx : x = a
          · simp [hba, hlt, hv, hx, Memory.read_cons]
          · simp [hba, hlt, hv, hx, Memory.read_cons, Ne.symm hx]

/-- A read after a write: the value written at that address, everything else as before (R55, R68). -/
theorem Memory.read_write {m : Memory} (hm : m.wf = true) (a : Nat) (v : W64) (x : Nat) :
    (m.write a v).read x = if x = a then v else m.read x :=
  Memory.read_write_from hm a v x

/-- A write leaves every other address alone, in any list of cells. -/
theorem Memory.read_write_other (m : Memory) (a : Nat) (v : W64) {x : Nat} (hx : x ≠ a) :
    (m.write a v).read x = m.read x := by
  induction m with
  | nil => by_cases hv : v = 0#64 <;> simp [Memory.write, Memory.read_cons, hv, Ne.symm hx]
  | cons c m ih =>
    obtain ⟨b, u⟩ := c
    simp only [Memory.write]
    split
    · next h =>
      subst h
      split <;> simp [Memory.read_cons, Ne.symm hx]
    · split
      · simp only [Memory.read_cons]
        rw [ih]
      · split
        · rfl
        · simp [Memory.read_cons, Ne.symm hx]

theorem Memory.wfFrom_write {lo : Nat} {m : Memory} (hm : Memory.wfFrom lo m = true) {a : Nat}
    (hlo : lo ≤ a) (ha : a ≤ Config.addrMax) (v : W64) :
    Memory.wfFrom lo (Memory.write m a v) = true := by
  induction m generalizing lo with
  | nil =>
    by_cases hv : v = 0#64
    · simp [Memory.write, hv, Memory.wfFrom]
    · simp [Memory.write, hv, hlo, ha, Memory.wfFrom]
  | cons c m ih =>
    obtain ⟨b, u⟩ := c
    have hm' := hm
    rw [Memory.wfFrom_cons] at hm
    obtain ⟨h1, h2, h3, h4⟩ := hm
    simp only [Memory.write]
    split
    · next h =>
      subst h
      split
      · exact Memory.wfFrom_mono (by omega) h4
      · next hv => rw [Memory.wfFrom_cons]; exact ⟨h1, h2, hv, h4⟩
    · split
      · next hlt =>
        rw [Memory.wfFrom_cons]
        exact ⟨h1, h2, h3, ih h4 (by omega)⟩
      · split
        · exact hm'
        · next hba hlt hv =>
          rw [Memory.wfFrom_cons, Memory.wfFrom_cons]
          exact ⟨hlo, ha, hv, by omega, h2, h3, h4⟩

/-- A write to a legal address keeps the canonical form. -/
theorem Memory.wf_write {m : Memory} (hm : m.wf = true) {a : Nat} (ha : a ≤ Config.addrMax)
    (v : W64) : (m.write a v).wf = true :=
  Memory.wfFrom_write hm (Nat.zero_le a) ha v

theorem Memory.wfFrom_ofWords (ws : List W64) (base : Nat)
    (h : base + ws.length ≤ Config.addrMax + 1) :
    Memory.wfFrom base (Memory.ofWords base ws) = true := by
  induction ws generalizing base with
  | nil => rfl
  | cons w ws ih =>
    simp only [List.length_cons] at h
    have hrest := ih (base + 1) (by omega)
    simp only [Memory.ofWords]
    split
    · exact Memory.wfFrom_mono (Nat.le_succ base) hrest
    · next hw =>
      rw [Memory.wfFrom_cons]
      exact ⟨le_refl base, by omega, hw, hrest⟩

/-- Loading a Program gives memory in canonical form. -/
theorem Memory.wf_ofWords (ws : List W64) (h : ws.length ≤ Config.programMax) :
    (Memory.ofWords 0 ws).wf = true :=
  Memory.wfFrom_ofWords ws 0 (by simp only [Config.addrMax, Config.programMax] at *; omega)

theorem Memory.read_ofWords_below (ws : List W64) {base a : Nat} (h : a < base) :
    Memory.read (Memory.ofWords base ws) a = 0#64 := by
  induction ws generalizing base with
  | nil => rfl
  | cons w ws ih =>
    simp only [Memory.ofWords]
    split
    · exact ih (by omega)
    · rw [Memory.read_cons, if_neg (by omega)]
      exact ih (by omega)

/-- A loaded memory reads as the Program, and as 0 beyond it (R270). -/
theorem Memory.read_ofWords (ws : List W64) (base k : Nat) :
    Memory.read (Memory.ofWords base ws) (base + k) = ws.getD k 0#64 := by
  induction ws generalizing base k with
  | nil => simp [Memory.ofWords]
  | cons w ws ih =>
    simp only [Memory.ofWords]
    cases k with
    | zero =>
      split
      · next hw => simp [hw, Memory.read_ofWords_below ws (Nat.lt_succ_self base)]
      · simp [Memory.read_cons]
    | succ k =>
      have e : base + (k + 1) = base + 1 + k := by omega
      split
      · rw [e, ih]; simp
      · rw [Memory.read_cons, if_neg (by omega), e, ih]; simp

end Sys2Proof.Machine
end

