-- ==== Sys2Proof/Laws/State.lean ====
section
/-! SUPPORT. For every update of State, what each field is afterwards (true by rfl). -/

namespace Sys2Proof.Machine

@[simp] theorem State.raise_n (s : State) (c : Cause) : (s.raise c).n = s.n := rfl
@[simp] theorem State.raise_mem (s : State) (c : Cause) : (s.raise c).mem = s.mem := rfl
@[simp] theorem State.raise_ip (s : State) (c : Cause) : (s.raise c).ip = s.ip := rfl
@[simp] theorem State.raise_rb (s : State) (c : Cause) : (s.raise c).rb = s.rb := rfl
@[simp] theorem State.raise_halted (s : State) (c : Cause) : (s.raise c).halted = s.halted := rfl
@[simp] theorem State.raise_phase (s : State) (c : Cause) : (s.raise c).phase = .faulted c := rfl
@[simp] theorem State.raise_inAttached (s : State) (c : Cause) : (s.raise c).inAttached = s.inAttached := rfl
@[simp] theorem State.raise_outAttached (s : State) (c : Cause) : (s.raise c).outAttached = s.outAttached := rfl
@[simp] theorem State.raise_inputs (s : State) (c : Cause) : (s.raise c).inputs = s.inputs := rfl
@[simp] theorem State.raise_inputsTaken (s : State) (c : Cause) : (s.raise c).inputsTaken = s.inputsTaken := rfl
@[simp] theorem State.raise_outputs (s : State) (c : Cause) : (s.raise c).outputs = s.outputs := rfl
@[simp] theorem State.raise_events (s : State) (c : Cause) : (s.raise c).events = s.events := rfl

@[simp] theorem State.advance_n (s : State) : (s.advance).n = s.n := rfl
@[simp] theorem State.advance_mem (s : State) : (s.advance).mem = s.mem := rfl
@[simp] theorem State.advance_ip (s : State) : (s.advance).ip = s.ip + 1 := rfl
@[simp] theorem State.advance_rb (s : State) : (s.advance).rb = s.rb := rfl
@[simp] theorem State.advance_halted (s : State) : (s.advance).halted = s.halted := rfl
@[simp] theorem State.advance_phase (s : State) : (s.advance).phase = s.phase := rfl
@[simp] theorem State.advance_inAttached (s : State) : (s.advance).inAttached = s.inAttached := rfl
@[simp] theorem State.advance_outAttached (s : State) : (s.advance).outAttached = s.outAttached := rfl
@[simp] theorem State.advance_inputs (s : State) : (s.advance).inputs = s.inputs := rfl
@[simp] theorem State.advance_inputsTaken (s : State) : (s.advance).inputsTaken = s.inputsTaken := rfl
@[simp] theorem State.advance_outputs (s : State) : (s.advance).outputs = s.outputs := rfl
@[simp] theorem State.advance_events (s : State) : (s.advance).events = s.events := rfl

@[simp] theorem State.emit_n (s : State) (r : Reason) : (s.emit r).n = s.n := rfl
@[simp] theorem State.emit_mem (s : State) (r : Reason) : (s.emit r).mem = s.mem := rfl
@[simp] theorem State.emit_ip (s : State) (r : Reason) : (s.emit r).ip = s.ip := rfl
@[simp] theorem State.emit_rb (s : State) (r : Reason) : (s.emit r).rb = s.rb := rfl
@[simp] theorem State.emit_halted (s : State) (r : Reason) : (s.emit r).halted = s.halted := rfl
@[simp] theorem State.emit_phase (s : State) (r : Reason) : (s.emit r).phase = s.phase := rfl
@[simp] theorem State.emit_inAttached (s : State) (r : Reason) : (s.emit r).inAttached = s.inAttached := rfl
@[simp] theorem State.emit_outAttached (s : State) (r : Reason) : (s.emit r).outAttached = s.outAttached := rfl
@[simp] theorem State.emit_inputs (s : State) (r : Reason) : (s.emit r).inputs = s.inputs := rfl
@[simp] theorem State.emit_inputsTaken (s : State) (r : Reason) : (s.emit r).inputsTaken = s.inputsTaken := rfl
@[simp] theorem State.emit_outputs (s : State) (r : Reason) : (s.emit r).outputs = s.outputs := rfl
@[simp] theorem State.emit_events (s : State) (r : Reason) : (s.emit r).events = s.events ++ [⟨r, s.mem⟩] := rfl

@[simp] theorem State.inputTaken_n (s : State) : (s.inputTaken).n = s.n := rfl
@[simp] theorem State.inputTaken_mem (s : State) : (s.inputTaken).mem = s.mem := rfl
@[simp] theorem State.inputTaken_ip (s : State) : (s.inputTaken).ip = s.ip := rfl
@[simp] theorem State.inputTaken_rb (s : State) : (s.inputTaken).rb = s.rb := rfl
@[simp] theorem State.inputTaken_halted (s : State) : (s.inputTaken).halted = s.halted := rfl
@[simp] theorem State.inputTaken_phase (s : State) : (s.inputTaken).phase = s.phase := rfl
@[simp] theorem State.inputTaken_inAttached (s : State) : (s.inputTaken).inAttached = s.inAttached := rfl
@[simp] theorem State.inputTaken_outAttached (s : State) : (s.inputTaken).outAttached = s.outAttached := rfl
@[simp] theorem State.inputTaken_inputs (s : State) : (s.inputTaken).inputs = s.inputs.tail := rfl
@[simp] theorem State.inputTaken_inputsTaken (s : State) : (s.inputTaken).inputsTaken = s.inputsTaken + 1 := rfl
@[simp] theorem State.inputTaken_outputs (s : State) : (s.inputTaken).outputs = s.outputs := rfl
@[simp] theorem State.inputTaken_events (s : State) : (s.inputTaken).events = s.events := rfl

@[simp] theorem State.outputWrite_n (s : State) (v : W64) : (s.outputWrite v).n = s.n := rfl
@[simp] theorem State.outputWrite_mem (s : State) (v : W64) : (s.outputWrite v).mem = s.mem := rfl
@[simp] theorem State.outputWrite_ip (s : State) (v : W64) : (s.outputWrite v).ip = s.ip := rfl
@[simp] theorem State.outputWrite_rb (s : State) (v : W64) : (s.outputWrite v).rb = s.rb := rfl
@[simp] theorem State.outputWrite_halted (s : State) (v : W64) : (s.outputWrite v).halted = s.halted := rfl
@[simp] theorem State.outputWrite_phase (s : State) (v : W64) : (s.outputWrite v).phase = s.phase := rfl
@[simp] theorem State.outputWrite_inAttached (s : State) (v : W64) : (s.outputWrite v).inAttached = s.inAttached := rfl
@[simp] theorem State.outputWrite_outAttached (s : State) (v : W64) : (s.outputWrite v).outAttached = s.outAttached := rfl
@[simp] theorem State.outputWrite_inputs (s : State) (v : W64) : (s.outputWrite v).inputs = s.inputs := rfl
@[simp] theorem State.outputWrite_inputsTaken (s : State) (v : W64) : (s.outputWrite v).inputsTaken = s.inputsTaken := rfl
@[simp] theorem State.outputWrite_outputs (s : State) (v : W64) : (s.outputWrite v).outputs =
    if s.outAttached then s.outputs ++ [v] else s.outputs := rfl
@[simp] theorem State.outputWrite_events (s : State) (v : W64) : (s.outputWrite v).events = s.events := rfl

@[simp] theorem State.setHalted_n (s : State) : (s.setHalted).n = s.n := rfl
@[simp] theorem State.setHalted_mem (s : State) : (s.setHalted).mem = s.mem := rfl
@[simp] theorem State.setHalted_ip (s : State) : (s.setHalted).ip = s.ip := rfl
@[simp] theorem State.setHalted_rb (s : State) : (s.setHalted).rb = s.rb := rfl
@[simp] theorem State.setHalted_halted (s : State) : (s.setHalted).halted = true := rfl
@[simp] theorem State.setHalted_phase (s : State) : (s.setHalted).phase = .halted := rfl
@[simp] theorem State.setHalted_inAttached (s : State) : (s.setHalted).inAttached = s.inAttached := rfl
@[simp] theorem State.setHalted_outAttached (s : State) : (s.setHalted).outAttached = s.outAttached := rfl
@[simp] theorem State.setHalted_inputs (s : State) : (s.setHalted).inputs = s.inputs := rfl
@[simp] theorem State.setHalted_inputsTaken (s : State) : (s.setHalted).inputsTaken = s.inputsTaken := rfl
@[simp] theorem State.setHalted_outputs (s : State) : (s.setHalted).outputs = s.outputs := rfl
@[simp] theorem State.setHalted_events (s : State) : (s.setHalted).events = s.events := rfl

@[simp] theorem State.supply_n (s : State) (vs : List W64) : (s.supply vs).n = s.n := rfl
@[simp] theorem State.supply_mem (s : State) (vs : List W64) : (s.supply vs).mem = s.mem := rfl
@[simp] theorem State.supply_ip (s : State) (vs : List W64) : (s.supply vs).ip = s.ip := rfl
@[simp] theorem State.supply_rb (s : State) (vs : List W64) : (s.supply vs).rb = s.rb := rfl
@[simp] theorem State.supply_halted (s : State) (vs : List W64) : (s.supply vs).halted = s.halted := rfl
@[simp] theorem State.supply_phase (s : State) (vs : List W64) : (s.supply vs).phase = s.phase := rfl
@[simp] theorem State.supply_inAttached (s : State) (vs : List W64) : (s.supply vs).inAttached = s.inAttached := rfl
@[simp] theorem State.supply_outAttached (s : State) (vs : List W64) : (s.supply vs).outAttached = s.outAttached := rfl
@[simp] theorem State.supply_inputs (s : State) (vs : List W64) : (s.supply vs).inputs = s.inputs ++ vs := rfl
@[simp] theorem State.supply_inputsTaken (s : State) (vs : List W64) : (s.supply vs).inputsTaken = s.inputsTaken := rfl
@[simp] theorem State.supply_outputs (s : State) (vs : List W64) : (s.supply vs).outputs = s.outputs := rfl
@[simp] theorem State.supply_events (s : State) (vs : List W64) : (s.supply vs).events = s.events := rfl

end Sys2Proof.Machine
end

