-- ==== Sys2Proof/Laws/Ops.lean ====
section
/-! SUPPORT. One lemma for each shared operation: everything it can do. Later proofs cite these and do not
unfold the operations. -/

namespace Sys2Proof.Machine

@[simp] theorem Result.ok_andThen {α : Type} (v : α) (s : State) (k : α → State → Out) :
    (Result.ok v s).andThen k = k v s := rfl

@[simp] theorem Result.raised_andThen {α : Type} (c : Cause) (s : State) (k : α → State → Out) :
    (Result.raised c s : Result α).andThen k = .next (s.raise c) := rfl

@[simp] theorem Result.ok_bind {α β : Type} (v : α) (s : State) (k : α → State → Result β) :
    (Result.ok v s).bind k = k v s := rfl

@[simp] theorem Result.raised_bind {α β : Type} (c : Cause) (s : State) (k : α → State → Result β) :
    (Result.raised c s : Result α).bind k = .raised c s := rfl

theorem State.memRead_legal (s : State) {a : Int} (h : LegalAddr a) :
    s.memRead a = .ok (s.mem.read a.toNat) s := if_pos h

theorem State.memRead_illegal (s : State) {a : Int} (h : ¬ LegalAddr a) :
    s.memRead a = .raised (.addressRange a) s := if_neg h

theorem State.memWrite_legal (s : State) {a : Int} (h : LegalAddr a) (v : W64) :
    s.memWrite a v = .ok () { s with mem := s.mem.write a.toNat v } := if_pos h

theorem State.memWrite_illegal (s : State) {a : Int} (h : ¬ LegalAddr a) (v : W64) :
    s.memWrite a v = .raised (.addressRange a) s := if_neg h

theorem State.cellAt_eq_some {s : State} {a : Int} {v : W64} :
    s.cellAt a = some v ↔ LegalAddr a ∧ v = s.mem.read a.toNat := by
  unfold State.cellAt
  split
  · next h =>
    rw [Option.some.injEq]
    exact ⟨fun e => ⟨h, e.symm⟩, fun e => e.2.symm⟩
  · next h => simp only [reduceCtorEq, false_iff]; exact fun hc => h hc.1

/-! ### What a value or an address depends on: memory and `rb` only -/

@[simp] theorem valueOf_ip (s : State) (x : W64) (p : Param) :
    valueOf { s with ip := x } p = valueOf s p := rfl

@[simp] theorem valueOf_advance (s : State) (p : Param) : valueOf s.advance p = valueOf s p := rfl

@[simp] theorem readAddr_advance (s : State) (p : Param) : readAddr s.advance p = readAddr s p := rfl

/-! ### The parameter operations -/

/-- Everything the processing of a value parameter can do (R135, R136, R137). -/
theorem takeValue_cases (k : Nat) (p : Param) (s : State) :
    (s.pastEnd ∧ takeValue k p s = .raised (.incompleteInstruction s.ip) s) ∨
    (¬ s.pastEnd ∧ ∃ d, p.mode = .reserved d ∧
      takeValue k p s = .raised (.invalidParamMode k (d.val + 3)) s.advance) ∨
    (¬ s.pastEnd ∧ ∃ a, readAddr s p = some a ∧ ¬ LegalAddr a ∧
      takeValue k p s = .raised (.addressRange a) s.advance) ∨
    (¬ s.pastEnd ∧ ∃ v, valueOf s p = some v ∧ takeValue k p s = .ok v s.advance) := by
  by_cases hp : s.pastEnd
  · exact .inl ⟨hp, by simp [takeValue, nextWord, hp]⟩
  · have e : nextWord p s = .ok p.word s.advance := if_neg hp
    obtain ⟨m, w⟩ := p
    cases m with
    | reserved d => exact .inr (.inl ⟨hp, d, rfl, by simp [takeValue, e, Mode.digit]⟩)
    | immediate => exact .inr (.inr (.inr ⟨hp, w, rfl, by simp [takeValue, e]⟩))
    | position =>
      by_cases ha : LegalAddr w.toInt
      · exact .inr (.inr (.inr ⟨hp, s.mem.read w.toInt.toNat, if_pos ha,
          by simp [takeValue, e, State.memRead_legal _ ha]⟩))
      · exact .inr (.inr (.inl ⟨hp, w.toInt, rfl, ha,
          by simp [takeValue, e, State.memRead_illegal _ ha]⟩))
    | relative =>
      by_cases ha : LegalAddr (s.rb.toInt + w.toInt)
      · exact .inr (.inr (.inr ⟨hp, s.mem.read (s.rb.toInt + w.toInt).toNat, if_pos ha,
          by simp [takeValue, e, State.memRead_legal _ ha]⟩))
      · exact .inr (.inr (.inl ⟨hp, s.rb.toInt + w.toInt, rfl, ha,
          by simp [takeValue, e, State.memRead_illegal _ ha]⟩))

/-- A value parameter whose word is there and whose value exists gives that value (R137). -/
theorem takeValue_ok (k : Nat) {p : Param} {s : State} {v : W64} (hp : ¬ s.pastEnd)
    (hv : valueOf s p = some v) : takeValue k p s = .ok v s.advance := by
  have e : nextWord p s = .ok p.word s.advance := if_neg hp
  obtain ⟨m, w⟩ := p
  cases m with
  | reserved d => simp [valueOf] at hv
  | immediate =>
    simp only [valueOf, Option.some.injEq] at hv
    subst hv
    simp [takeValue, e]
  | position =>
    obtain ⟨ha, rfl⟩ := State.cellAt_eq_some.1 hv
    simp [takeValue, e, State.memRead_legal _ ha]
  | relative =>
    obtain ⟨ha, rfl⟩ := State.cellAt_eq_some.1 hv
    simp [takeValue, e, State.memRead_legal _ ha]

/-- A value parameter of an address that does not exist (R54, R238). -/
theorem takeValue_badAddr (k : Nat) {p : Param} {s : State} {a : Int} (hp : ¬ s.pastEnd)
    (hr : readAddr s p = some a) (ha : ¬ LegalAddr a) :
    takeValue k p s = .raised (.addressRange a) s.advance := by
  have e : nextWord p s = .ok p.word s.advance := if_neg hp
  obtain ⟨m, w⟩ := p
  cases m with
  | reserved d => simp [readAddr] at hr
  | immediate => simp [readAddr] at hr
  | position =>
    simp only [readAddr, Option.some.injEq] at hr
    subst hr
    simp [takeValue, e, State.memRead_illegal _ ha]
  | relative =>
    simp only [readAddr, Option.some.injEq] at hr
    subst hr
    simp [takeValue, e, State.memRead_illegal _ ha]

/-- A value parameter with a mode digit 3 .. 9 (R86). -/
theorem takeValue_reserved (k : Nat) {p : Param} {s : State} {d : Fin 7} (hp : ¬ s.pastEnd)
    (hm : p.mode = .reserved d) :
    takeValue k p s = .raised (.invalidParamMode k (d.val + 3)) s.advance := by
  have e : nextWord p s = .ok p.word s.advance := if_neg hp
  simp [takeValue, e, hm, Mode.digit]

theorem takeValue_pastEnd (k : Nat) (p : Param) {s : State} (hp : s.pastEnd) :
    takeValue k p s = .raised (.incompleteInstruction s.ip) s := by
  simp [takeValue, nextWord, hp]

/-- Everything the processing of a destination parameter can do (R135, R136, R138). -/
theorem takeDest_cases (k : Nat) (p : Param) (s : State) :
    (s.pastEnd ∧ takeDest k p s = .raised (.incompleteInstruction s.ip) s) ∨
    (¬ s.pastEnd ∧ destOf p = none ∧
      takeDest k p s = .raised (.invalidParamMode k p.mode.digit) s.advance) ∨
    (¬ s.pastEnd ∧ ∃ dst, destOf p = some dst ∧ takeDest k p s = .ok dst s.advance) := by
  by_cases hp : s.pastEnd
  · exact .inl ⟨hp, by simp [takeDest, nextWord, hp]⟩
  · have e : nextWord p s = .ok p.word s.advance := if_neg hp
    obtain ⟨m, w⟩ := p
    cases m with
    | reserved d => exact .inr (.inl ⟨hp, rfl, by simp [takeDest, e]⟩)
    | immediate => exact .inr (.inl ⟨hp, rfl, by simp [takeDest, e]⟩)
    | position => exact .inr (.inr ⟨hp, ⟨.position, w⟩, rfl, by simp [takeDest, e]⟩)
    | relative => exact .inr (.inr ⟨hp, ⟨.relative, w⟩, rfl, by simp [takeDest, e]⟩)

theorem takeDest_ok (k : Nat) {p : Param} {s : State} {dst : Dest} (hp : ¬ s.pastEnd)
    (hd : destOf p = some dst) : takeDest k p s = .ok dst s.advance := by
  obtain ⟨h, _⟩ | ⟨_, h, _⟩ | ⟨_, dst', h, e⟩ := takeDest_cases k p s
  · exact absurd h hp
  · rw [h] at hd; cases hd
  · rw [h] at hd
    cases hd
    exact e

theorem takeDest_bad (k : Nat) {p : Param} {s : State} (hp : ¬ s.pastEnd)
    (hd : destOf p = none) :
    takeDest k p s = .raised (.invalidParamMode k p.mode.digit) s.advance := by
  obtain ⟨h, _⟩ | ⟨_, _, e⟩ | ⟨_, dst', h, _⟩ := takeDest_cases k p s
  · exact absurd h hp
  · exact e
  · rw [h] at hd; cases hd

theorem takeDest_pastEnd (k : Nat) (p : Param) {s : State} (hp : s.pastEnd) :
    takeDest k p s = .raised (.incompleteInstruction s.ip) s := by
  simp [takeDest, nextWord, hp]

/-- `Store(dest, v)`: the write, or a fault that writes nothing (R139, R241). -/
theorem store_cases (d : Dest) (v : W64) (s : State) :
    (LegalAddr (destAddr d s.rb) ∧
      store d v s = .ok () { s with mem := s.mem.write (destAddr d s.rb).toNat v }) ∨
    (¬ LegalAddr (destAddr d s.rb) ∧ store d v s = .raised (.addressRange (destAddr d s.rb)) s) := by
  by_cases h : LegalAddr (destAddr d s.rb)
  · exact .inl ⟨h, State.memWrite_legal s h v⟩
  · exact .inr ⟨h, State.memWrite_illegal s h v⟩

theorem store_ok {d : Dest} {s : State} (v : W64) (h : LegalAddr (destAddr d s.rb)) :
    store d v s = .ok () { s with mem := s.mem.write (destAddr d s.rb).toNat v } :=
  State.memWrite_legal s h v

theorem store_bad {d : Dest} {s : State} (v : W64) (h : ¬ LegalAddr (destAddr d s.rb)) :
    store d v s = .raised (.addressRange (destAddr d s.rb)) s :=
  State.memWrite_illegal s h v

/-! ### Advancing `ip` -/

/-- The state with `ip` moved on by `k` cells. -/
theorem State.advance_advance (s : State) : s.advance.advance = { s with ip := s.ip + 2 } := by
  simp only [State.advance, BitVec.add_assoc]
  rfl

theorem State.advance_three (s : State) : s.advance.advance.advance = { s with ip := s.ip + 3 } := by
  simp only [State.advance, BitVec.add_assoc]
  rfl

theorem toInt_add_one {x : W64} (h : x.toInt < 9223372036854775807) :
    (x + 1).toInt = x.toInt + 1 := by
  rw [BitVec.toInt_add]
  have := BitVec.le_toInt x
  rw [show (1 : BitVec 64).toInt = 1 from rfl, Int.bmod_def]
  omega

/-- With room for `k + 1` words, the first is there, and after it there is room for `k`. -/
theorem State.roomFor_succ {s : State} {k : Nat} (h : s.roomFor (k + 1)) :
    ¬ s.pastEnd ∧ s.advance.roomFor k := by
  obtain ⟨h1, h2⟩ := h
  have h3 : s.n ≤ 9223372036854775807 := h2
  have h4 : s.advance.ip.toInt = s.ip.toInt + 1 := toInt_add_one (by push_cast at h1; omega)
  refine ⟨?_, ?_, h2⟩
  · simp only [State.pastEnd]; push_cast at h1; omega
  · simp only [State.advance_n]; rw [h4]; push_cast at h1; omega

/-! ### The shared formats -/

/-- Everything an instruction of format VVD can do: a fault that leaves all but `ip` and the phase, or
the write of its result (R160, R161, R210, R211, R241). -/
theorem binaryToMemory_cases (f : W64 → W64 → W64) (a b d : Param) (s : State) :
    (∃ c x, c.ofOperands = true ∧
      binaryToMemory f a b d s = .next ({ s with ip := x }.raise c)) ∨
    (∃ v1 v2 dst, valueOf s a = some v1 ∧ valueOf s b = some v2 ∧ destOf d = some dst ∧
      LegalAddr (destAddr dst s.rb) ∧
      binaryToMemory f a b d s = .next { s with
        ip := s.ip + 3
        mem := s.mem.write (destAddr dst s.rb).toNat (f v1 v2) }) := by
  unfold binaryToMemory
  obtain ⟨_, e⟩ | ⟨_, d1, _, e⟩ | ⟨_, a1, _, _, e⟩ | ⟨_, v1, h1, e⟩ := takeValue_cases 1 a s <;>
    rw [e]
  · exact .inl ⟨_, s.ip, rfl, rfl⟩
  · exact .inl ⟨_, _, rfl, rfl⟩
  · exact .inl ⟨_, _, rfl, rfl⟩
  obtain ⟨_, e⟩ | ⟨_, d1, _, e⟩ | ⟨_, a1, _, _, e⟩ | ⟨_, v2, h2, e⟩ :=
    takeValue_cases 2 b s.advance <;> rw [Result.ok_andThen, e]
  · exact .inl ⟨_, _, rfl, rfl⟩
  · exact .inl ⟨_, _, rfl, rfl⟩
  · exact .inl ⟨_, _, rfl, rfl⟩
  obtain ⟨_, e⟩ | ⟨_, _, e⟩ | ⟨_, dst, h3, e⟩ := takeDest_cases 3 d s.advance.advance <;>
    rw [Result.ok_andThen, e]
  · exact .inl ⟨_, _, rfl, rfl⟩
  · exact .inl ⟨_, _, rfl, rfl⟩
  simp only [Result.ok_andThen, State.advance_three]
  obtain ⟨h4, e⟩ | ⟨h4, e⟩ := store_cases dst (f v1 v2) { s with ip := s.ip + 3 } <;> rw [e]
  · exact .inr ⟨v1, v2, dst, h1, h2, h3, h4, rfl⟩
  · exact .inl ⟨_, _, rfl, rfl⟩

/-- An instruction of format VVD whose operands exist writes its result. -/
theorem binaryToMemory_ok (f : W64 → W64 → W64) {a b d : Param} {s : State} {v1 v2 : W64} {dst : Dest}
    (hr : s.roomFor 3) (h1 : valueOf s a = some v1) (h2 : valueOf s b = some v2)
    (h3 : destOf d = some dst) (h4 : LegalAddr (destAddr dst s.rb)) :
    binaryToMemory f a b d s = .next { s with
      ip := s.ip + 3
      mem := s.mem.write (destAddr dst s.rb).toNat (f v1 v2) } := by
  obtain ⟨e1, hr⟩ := State.roomFor_succ hr
  obtain ⟨e2, hr⟩ := State.roomFor_succ hr
  obtain ⟨e3, _⟩ := State.roomFor_succ hr
  unfold binaryToMemory
  rw [takeValue_ok 1 e1 h1, Result.ok_andThen, takeValue_ok 2 e2 h2, Result.ok_andThen,
    takeDest_ok 3 e3 h3, Result.ok_andThen, State.advance_three]
  rw [store_ok (s := { s with ip := s.ip + 3 }) (f v1 v2) h4]
  rfl

/-- Everything an instruction of format VV can do. -/
theorem withTwoValues_cases (a b : Param) (s : State) (k : W64 → W64 → State → State) :
    (∃ c x, c.ofOperands = true ∧ withTwoValues a b s k = .next ({ s with ip := x }.raise c)) ∨
    (∃ v1 v2, valueOf s a = some v1 ∧ valueOf s b = some v2 ∧
      withTwoValues a b s k = .next (k v1 v2 { s with ip := s.ip + 2 })) := by
  unfold withTwoValues
  obtain ⟨_, e⟩ | ⟨_, d1, _, e⟩ | ⟨_, a1, _, _, e⟩ | ⟨_, v1, h1, e⟩ := takeValue_cases 1 a s <;>
    rw [e]
  · exact .inl ⟨_, s.ip, rfl, rfl⟩
  · exact .inl ⟨_, _, rfl, rfl⟩
  · exact .inl ⟨_, _, rfl, rfl⟩
  obtain ⟨_, e⟩ | ⟨_, d1, _, e⟩ | ⟨_, a1, _, _, e⟩ | ⟨_, v2, h2, e⟩ :=
    takeValue_cases 2 b s.advance <;> rw [Result.ok_andThen, e]
  · exact .inl ⟨_, _, rfl, rfl⟩
  · exact .inl ⟨_, _, rfl, rfl⟩
  · exact .inl ⟨_, _, rfl, rfl⟩
  exact .inr ⟨v1, v2, h1, h2, by rw [Result.ok_andThen, State.advance_advance]⟩

theorem withTwoValues_ok {a b : Param} {s : State} {v1 v2 : W64} (k : W64 → W64 → State → State)
    (hr : s.roomFor 2) (h1 : valueOf s a = some v1) (h2 : valueOf s b = some v2) :
    withTwoValues a b s k = .next (k v1 v2 { s with ip := s.ip + 2 }) := by
  obtain ⟨e1, hr⟩ := State.roomFor_succ hr
  obtain ⟨e2, _⟩ := State.roomFor_succ hr
  unfold withTwoValues
  rw [takeValue_ok 1 e1 h1, Result.ok_andThen, takeValue_ok 2 e2 h2, Result.ok_andThen,
    State.advance_advance]

/-- Everything an instruction of format V can do. -/
theorem withOneValue_cases (a : Param) (s : State) (k : W64 → State → State) :
    (∃ c x, c.ofOperands = true ∧ withOneValue a s k = .next ({ s with ip := x }.raise c)) ∨
    (∃ v, valueOf s a = some v ∧ withOneValue a s k = .next (k v { s with ip := s.ip + 1 })) := by
  unfold withOneValue
  obtain ⟨_, e⟩ | ⟨_, d1, _, e⟩ | ⟨_, a1, _, _, e⟩ | ⟨_, v1, h1, e⟩ := takeValue_cases 1 a s <;>
    rw [e]
  · exact .inl ⟨_, s.ip, rfl, rfl⟩
  · exact .inl ⟨_, _, rfl, rfl⟩
  · exact .inl ⟨_, _, rfl, rfl⟩
  exact .inr ⟨v1, h1, rfl⟩

theorem withOneValue_ok {a : Param} {s : State} {v : W64} (k : W64 → State → State)
    (hr : s.roomFor 1) (h1 : valueOf s a = some v) :
    withOneValue a s k = .next (k v { s with ip := s.ip + 1 }) := by
  obtain ⟨e1, _⟩ := State.roomFor_succ hr
  unfold withOneValue
  rw [takeValue_ok 1 e1 h1]
  rfl

/-! ### The two halves of `in` and `out`, and the fetch -/

/-- Everything the first half of `in` can do (R170). -/
theorem execInp_cases (d : Param) (s : State) :
    (∃ c x, c.ofOperands = true ∧ execInp d s = .next ({ s with ip := x }.raise c)) ∨
    (∃ dst, destOf d = some dst ∧
      execInp d s = .next ({ s with ip := s.ip + 1, phase := .inWait dst }.emit .aboutToInput)) := by
  unfold execInp
  obtain ⟨_, e⟩ | ⟨_, _, e⟩ | ⟨_, dst, h, e⟩ := takeDest_cases 1 d s <;> rw [e]
  · exact .inl ⟨_, s.ip, rfl, rfl⟩
  · exact .inl ⟨_, _, rfl, rfl⟩
  · exact .inr ⟨dst, h, rfl⟩

theorem execInp_ok {d : Param} {s : State} {dst : Dest} (hr : s.roomFor 1)
    (h : destOf d = some dst) :
    execInp d s = .next ({ s with ip := s.ip + 1, phase := .inWait dst }.emit .aboutToInput) := by
  obtain ⟨e1, _⟩ := State.roomFor_succ hr
  unfold execInp
  rw [takeDest_ok 1 e1 h]
  rfl

/-- Everything the second half of `in` can do (R170, R236, R241). -/
theorem finishInp_cases (d : Dest) (s : State) :
    (s.inAttached = false ∧ finishInp d s = .next (s.raise .inputNotConnected)) ∨
    (s.inAttached = true ∧ ¬ LegalAddr (destAddr d s.rb) ∧
      finishInp d s = .next (s.inputTaken.raise (.addressRange (destAddr d s.rb)))) ∨
    (s.inAttached = true ∧ LegalAddr (destAddr d s.rb) ∧
      finishInp d s = .next ({ s.inputTaken with
        mem := s.mem.write (destAddr d s.rb).toNat s.nextInput
        phase := .run }.emit .afterInput)) := by
  unfold finishInp
  cases h : s.inAttached with
  | false => exact .inl ⟨rfl, rfl⟩
  | true =>
    obtain ⟨h4, e⟩ | ⟨h4, e⟩ := store_cases d s.nextInput s.inputTaken
    · exact .inr (.inr ⟨rfl, h4, by rw [if_pos rfl, e]; rfl⟩)
    · exact .inr (.inl ⟨rfl, h4, by rw [if_pos rfl, e]; rfl⟩)

/-- Everything the instruction-word fetch can do (R131). -/
theorem fetchWord_cases (s : State) :
    (s.pastEnd ∧ fetchWord s = .raised (.haltedAccess s.ip) s) ∨
    (s.ip.toInt < 0 ∧ ¬ s.pastEnd ∧ fetchWord s = .raised (.addressRange s.ip.toInt) s) ∨
    (0 ≤ s.ip.toInt ∧ ¬ s.pastEnd ∧
      fetchWord s = .ok (s.mem.read s.ip.toInt.toNat) s.advance) := by
  by_cases hp : s.pastEnd
  · exact .inl ⟨hp, if_pos hp⟩
  · by_cases h0 : s.ip.toInt < 0
    · refine .inr (.inl ⟨h0, hp, ?_⟩)
      rw [fetchWord, if_neg hp, State.memRead_illegal s (fun h => absurd h.1 (by omega))]
      rfl
    · refine .inr (.inr ⟨by omega, hp, ?_⟩)
      have := BitVec.toInt_lt (x := s.ip)
      rw [fetchWord, if_neg hp, State.memRead_legal s ⟨by omega, by simp [Config.addrMax]; omega⟩]
      rfl

end Sys2Proof.Machine
end

