-- ==== Sys2Proof/Laws/PerInstr.lean ====
section
/-! SUPPORT. Facts about every instruction as syntax, one lemma per constructor. -/

namespace Sys2Proof.Laws

/-- The cells of an instruction: as many as its length says, and its opcode in the low two decimal
digits of the first (R80, R81, R93). -/
def EncodedShape.Statement (i : Instr) : Prop :=
  (encode i).length = i.length ∧ i.headWord % 100 = i.opcode.code

theorem headWord_mod (i : Instr) : i.headWord % 100 = i.opcode.code := by
  cases i <;>
    simp only [Instr.headWord, Instr.opcode, Instr.params, modeDigits, Opcode.code] <;> omega

theorem EncodedShape.add (a b d : Param) : EncodedShape.Statement (.add a b d) := ⟨rfl, headWord_mod _⟩
theorem EncodedShape.mul (a b d : Param) : EncodedShape.Statement (.mul a b d) := ⟨rfl, headWord_mod _⟩
theorem EncodedShape.inp (d : Param) : EncodedShape.Statement (.inp d) := ⟨rfl, headWord_mod _⟩
theorem EncodedShape.out (a : Param) : EncodedShape.Statement (.out a) := ⟨rfl, headWord_mod _⟩
theorem EncodedShape.tjmp (a t : Param) : EncodedShape.Statement (.tjmp a t) := ⟨rfl, headWord_mod _⟩
theorem EncodedShape.fjmp (a t : Param) : EncodedShape.Statement (.fjmp a t) := ⟨rfl, headWord_mod _⟩
theorem EncodedShape.lt (a b d : Param) : EncodedShape.Statement (.lt a b d) := ⟨rfl, headWord_mod _⟩
theorem EncodedShape.eq (a b d : Param) : EncodedShape.Statement (.eq a b d) := ⟨rfl, headWord_mod _⟩
theorem EncodedShape.rbs (a : Param) : EncodedShape.Statement (.rbs a) := ⟨rfl, headWord_mod _⟩
theorem EncodedShape.halt : EncodedShape.Statement .halt := ⟨rfl, headWord_mod _⟩

end Sys2Proof.Laws
end

