-- ==== Sys2Proof/Laws/Step.lean ====
section
/-! SUPPORT. Everything an instruction and a step can do, said once: the cases later proofs split on. -/

namespace Sys2Proof.Machine

/-- Everything an instruction can do from a state whose `ip` is past its instruction word: an operand
fault, or the completed effect of its row (R141). -/
theorem exec_cases (i : Instr) (s : State) :
    (∃ c x, c.ofOperands = true ∧ exec i s = .next ({ s with ip := x }.raise c)) ∨
    (∃ a v, (i.opcode = .add ∨ i.opcode = .mul ∨ i.opcode = .lt ∨ i.opcode = .eq) ∧ LegalAddr a ∧
      exec i s = .next { s with ip := s.ip + 3, mem := s.mem.write a.toNat v }) ∨
    (∃ x, (i.opcode = .tjmp ∨ i.opcode = .fjmp) ∧ exec i s = .next { s with ip := x }) ∨
    (∃ x, i.opcode = .rbs ∧ exec i s = .next { s with ip := s.ip + 1, rb := x }) ∨
    (∃ d, i.opcode = .inp ∧
      exec i s = .next ({ s with ip := s.ip + 1, phase := .inWait d }.emit .aboutToInput)) ∨
    (∃ v, i.opcode = .out ∧
      exec i s = .next ({ s with ip := s.ip + 1, phase := .outWait v }.emit .aboutToOutput)) ∨
    (i.opcode = .halt ∧ exec i s = .next (s.setHalted.emit .halted)) := by
  have two : ∀ (a b : Param) (k : W64 → W64 → State → State),
      (∀ v w, ∃ x, k v w { s with ip := s.ip + 2 } = { s with ip := x }) →
      (∃ c x, c.ofOperands = true ∧ withTwoValues a b s k = .next ({ s with ip := x }.raise c)) ∨
      ∃ x, withTwoValues a b s k = .next { s with ip := x } := by
    intro a b k hk
    obtain h | ⟨v, w, _, _, h⟩ := withTwoValues_cases a b s k
    · exact .inl h
    · obtain ⟨x, hx⟩ := hk v w
      exact .inr ⟨x, by rw [h, hx]⟩
  cases i with
  | add a b d =>
    obtain h | ⟨_, _, dst, _, _, _, hl, h⟩ := binaryToMemory_cases aluAdd a b d s
    · exact .inl h
    · exact .inr (.inl ⟨_, _, .inl rfl, hl, h⟩)
  | mul a b d =>
    obtain h | ⟨_, _, dst, _, _, _, hl, h⟩ := binaryToMemory_cases aluMul a b d s
    · exact .inl h
    · exact .inr (.inl ⟨_, _, .inr (.inl rfl), hl, h⟩)
  | lt a b d =>
    obtain h | ⟨_, _, dst, _, _, _, hl, h⟩ := binaryToMemory_cases aluLt a b d s
    · exact .inl h
    · exact .inr (.inl ⟨_, _, .inr (.inr (.inl rfl)), hl, h⟩)
  | eq a b d =>
    obtain h | ⟨_, _, dst, _, _, _, hl, h⟩ := binaryToMemory_cases aluEq a b d s
    · exact .inl h
    · exact .inr (.inl ⟨_, _, .inr (.inr (.inr rfl)), hl, h⟩)
  | tjmp a t =>
    obtain h | ⟨x, h⟩ := two a t (fun v t u => if isZero v then u else { u with ip := t })
      (fun v w => by cases isZero v <;> exact ⟨_, rfl⟩)
    · exact .inl h
    · exact .inr (.inr (.inl ⟨x, .inl rfl, h⟩))
  | fjmp a t =>
    obtain h | ⟨x, h⟩ := two a t (fun v t u => if isZero v then { u with ip := t } else u)
      (fun v w => by cases isZero v <;> exact ⟨_, rfl⟩)
    · exact .inl h
    · exact .inr (.inr (.inl ⟨x, .inr rfl, h⟩))
  | rbs a =>
    obtain h | ⟨v, _, h⟩ := withOneValue_cases a s fun v t => { t with rb := aluAdd t.rb v }
    · exact .inl h
    · exact .inr (.inr (.inr (.inl ⟨_, rfl, h⟩)))
  | inp d =>
    obtain h | ⟨dst, _, h⟩ := execInp_cases d s
    · exact .inl h
    · exact .inr (.inr (.inr (.inr (.inl ⟨dst, rfl, h⟩))))
  | out a =>
    obtain h | ⟨v, _, h⟩ :=
      withOneValue_cases a s fun v t => { t with phase := .outWait v }.emit .aboutToOutput
    · exact .inl h
    · exact .inr (.inr (.inr (.inr (.inr (.inl ⟨v, rfl, h⟩)))))
  | halt => exact .inr (.inr (.inr (.inr (.inr (.inr ⟨rfl, rfl⟩)))))

/-- A decoded instruction comes from a word that is not negative, and its opcode is the word's low two
decimal digits (R97). -/
theorem decode_ok {x : Window} {i : Instr} (h : decode x = .ok i) :
    0 ≤ x.word.toInt ∧ x.word.toNat % 100 = i.opcode.code := by
  unfold decode at h
  split at h
  · cases h
  · next hn =>
    split at h
    · cases h
    · next o ho =>
      refine ⟨by omega, ?_⟩
      have hc := List.find?_some ho
      simp only [beq_iff_eq, opcodeField] at hc
      cases h
      rw [← hc]
      cases o <;> rfl

/-- Everything a cycle can do (R131, R132, R143). -/
theorem cycle_cases (s : State) :
    (s.pastEnd ∧ cycle s = .next (s.raise (.haltedAccess s.ip))) ∨
    (s.ip.toInt < 0 ∧ cycle s = .next (s.raise (.addressRange s.ip.toInt))) ∨
    (0 ≤ s.ip.toInt ∧ s.ip.toInt < (s.n : Int) ∧
      ((∃ e, decode (s.advance.window s.wordAtIp) = .error e ∧
        cycle s = .next (s.advance.raise (rejectCause e))) ∨
      (∃ i, decode (s.advance.window s.wordAtIp) = .ok i ∧ cycle s = exec i s.advance))) := by
  obtain ⟨h, e⟩ | ⟨h, _, e⟩ | ⟨h0, h, e⟩ := fetchWord_cases s
  · exact .inl ⟨h, by rw [cycle, e]; rfl⟩
  · exact .inr (.inl ⟨h, by rw [cycle, e]; rfl⟩)
  · refine .inr (.inr ⟨h0, by simpa using h, ?_⟩)
    have hw : s.mem.read s.ip.toInt.toNat = s.wordAtIp := by
      have : s.ip.toInt.toNat = s.ip.toNat := by
        rw [BitVec.toInt_eq_toNat_cond] at h0 ⊢
        split at h0
        · simp_all
        · omega
      rw [this, State.wordAtIp]
    rw [hw] at e
    cases hd : decode (s.advance.window s.wordAtIp) with
    | error x => exact .inl ⟨x, rfl, by rw [cycle, e, Result.ok_andThen, hd]⟩
    | ok i => exact .inr ⟨i, rfl, by rw [cycle, e, Result.ok_andThen, hd]⟩

/-- A step in each phase (R143). -/
theorem step_run {s : State} (h : s.phase = .run) : step s = cycle s := by simp [step, h]

theorem step_inWait {s : State} {d : Dest} (h : s.phase = .inWait d) : step s = finishInp d s := by
  simp [step, h]

theorem step_outWait {s : State} {v : W64} (h : s.phase = .outWait v) : step s = finishOut v s := by
  simp [step, h]

theorem step_halted {s : State} (h : s.phase = .halted) : step s = .fault .coreHalted := by
  simp [step, h]

theorem step_faulted {s : State} {c : Cause} (h : s.phase = .faulted c) :
    step s = .fault (.coreFaulted c) := by
  simp [step, h]

/-- What a step that has a next state did, in one list of cases. -/
theorem step_next_cases {s t : State} (h : step s = .next t) :
    (s.phase = .run ∧ ∃ c x, t = { s with ip := x, phase := .faulted c }) ∨
    (s.canFetch ∧ ∃ i, decode (s.advance.window s.wordAtIp) = .ok i ∧
      exec i s.advance = .next t) ∨
    (∃ d, s.phase = .inWait d ∧ finishInp d s = .next t) ∨
    (∃ v, s.phase = .outWait v ∧ finishOut v s = .next t) := by
  cases hp : s.phase with
  | run =>
    rw [step_run hp] at h
    obtain ⟨_, e⟩ | ⟨_, e⟩ | ⟨h0, h1, ⟨x, _, e⟩ | ⟨i, hd, e⟩⟩ := cycle_cases s
    · rw [e] at h
      cases h
      exact .inl ⟨rfl, _, s.ip, rfl⟩
    · rw [e] at h
      cases h
      exact .inl ⟨rfl, _, s.ip, rfl⟩
    · rw [e] at h
      cases h
      exact .inl ⟨rfl, _, _, rfl⟩
    · exact .inr (.inl ⟨⟨hp, h0, h1⟩, i, hd, e ▸ h⟩)
  | inWait d => exact .inr (.inr (.inl ⟨d, rfl, step_inWait hp ▸ h⟩))
  | outWait v => exact .inr (.inr (.inr ⟨v, rfl, step_outWait hp ▸ h⟩))
  | halted => rw [step_halted hp] at h; cases h
  | faulted c => rw [step_faulted hp] at h; cases h

end Sys2Proof.Machine
end

