-- ==== Sys2Proof/Laws/Resume.lean ====
section
/-! SUPPORT. What one step adds to the event sequence, and what `Resume` reports of it. -/

namespace Sys2Proof.Machine

theorem State.ended_iff (s : State) :
    s.ended = true ↔ (s.phase = .halted ∨ ∃ c, s.phase = .faulted c) := by
  unfold State.ended
  cases s.phase <;> simp

theorem State.exists_faulted {s : State} (h : s.isFaulted = true) : ∃ c, s.phase = .faulted c := by
  unfold State.isFaulted at h
  split at h
  · next c hc => exact ⟨c, hc⟩
  all_goals cases h

/-- A step emits no event, and is then not the step of `end`; or it emits one, with the memory it leaves,
and raises no fault (R176, R177, R240). -/
theorem step_events {s t : State} (h : step s = .next t) :
    (t.events = s.events ∧ t.phase ≠ .halted) ∨
    (∃ r, t.events = s.events ++ [⟨r, t.mem⟩] ∧ t.isFaulted = false) := by
  obtain ⟨_, c, x, rfl⟩ | ⟨hf, i, _, he⟩ | ⟨d, _, he⟩ | ⟨v, _, he⟩ := step_next_cases h
  · exact .inl ⟨rfl, by simp⟩
  · have hp := hf.1
    obtain ⟨c, x, _, e⟩ | ⟨a, v, _, _, e⟩ | ⟨x, _, e⟩ | ⟨x, _, e⟩ | ⟨d, _, e⟩ | ⟨v, _, e⟩ | ⟨_, e⟩ :=
      exec_cases i s.advance <;> rw [e] at he <;> cases he
    · exact .inl ⟨rfl, by simp⟩
    · exact .inl ⟨rfl, by simp [hp]⟩
    · exact .inl ⟨rfl, by simp [hp]⟩
    · exact .inl ⟨rfl, by simp [hp]⟩
    · exact .inr ⟨_, rfl, rfl⟩
    · exact .inr ⟨_, rfl, rfl⟩
    · exact .inr ⟨_, rfl, rfl⟩
  · obtain ⟨_, e⟩ | ⟨_, _, e⟩ | ⟨_, _, e⟩ := finishInp_cases d s <;> rw [e] at he <;> cases he
    · exact .inl ⟨rfl, by simp⟩
    · exact .inl ⟨rfl, by simp⟩
    · exact .inr ⟨_, rfl, rfl⟩
  · cases he
    exact .inr ⟨_, rfl, rfl⟩

/-- Everything `Resume` can make of one step: the fault, the one event, or nothing to report yet. -/
theorem stepReport_cases {s t : State} (h : step s = .next t) :
    (∃ c, t.phase = .faulted c ∧ t.events = s.events ∧ stepReport s t = some (.fault c)) ∨
    (∃ r, t.events = s.events ++ [⟨r, t.mem⟩] ∧ t.isFaulted = false ∧
      stepReport s t = some (.event ⟨r, t.mem⟩)) ∨
    (t.events = s.events ∧ t.ended = false ∧ stepReport s t = none) := by
  obtain ⟨h1, h2⟩ | ⟨r, h1, h2⟩ := step_events h
  · by_cases hf : t.isFaulted = true
    · obtain ⟨c, hc⟩ := State.exists_faulted hf
      exact .inl ⟨c, hc, h1, by simp [stepReport, hc]⟩
    · refine .inr (.inr ⟨h1, ?_, ?_⟩)
      · by_contra hcon
        simp only [Bool.not_eq_false, State.ended_iff] at hcon
        obtain h | ⟨c, h⟩ := hcon
        · exact h2 h
        · simp [State.isFaulted, h] at hf
      · unfold stepReport
        cases hp : t.phase <;> simp [h1, State.isFaulted, hp] at hf ⊢
  · refine .inr (.inl ⟨r, h1, h2, ?_⟩)
    unfold stepReport
    cases hp : t.phase <;> simp [h1, State.isFaulted, hp] at h2 ⊢

end Sys2Proof.Machine
end

