-- ==== Sys2Proof/Tests/Slice0.lean ====
section
/-! SUPPORT. The model's own tests: expected values from the spec's encoding rules and from
95_test_vectors.md; and for every obligation with hypotheses a witness that meets them. -/

namespace Sys2Proof.Tests

open Sys2Proof Sys2Proof.Machine

/-! ### Helpers -/

/-- Position, immediate and relative parameters, and one with the illegal mode digit `d + 3`. -/
def pos (w : W64) : Param := ⟨.position, w⟩
def imm (w : W64) : Param := ⟨.immediate, w⟩
def rel (w : W64) : Param := ⟨.relative, w⟩
def bad (d : Fin 7) : Param := ⟨.reserved d, 0⟩

/-- The greatest and the least word. -/
def maxW : W64 := 9223372036854775807
def minW : W64 := -9223372036854775808

/-- A core that has just loaded a program, both ports attached (95_test_vectors.md, Conventions). -/
def core (program : List W64) : State := State.load program true true

/-- The same with `ip` at an address. -/
def coreAt (program : List W64) (ip : W64) : State := { core program with ip := ip }

/-- The state after one step; the state itself where there is no step. -/
def stepped (s : State) : State :=
  match step s with
  | .next t => t
  | .fault _ => s
  | .refused _ => s

/-- The state after one instruction's own meaning. -/
def execd (i : Instr) (s : State) : State :=
  match exec i s with
  | .next t => t
  | .fault _ => s
  | .refused _ => s

/-! ### WellFormed: one ill-formed term for each check, refused -/

theorem test_wf_value_reserved : (bad 0).wellFormed .value = false := by decide
theorem test_wf_dest_immediate : (imm 3).wellFormed .destination = false := by decide
theorem test_wf_dest_reserved : (bad 6).wellFormed .destination = false := by decide
theorem test_wf_add :
    [Instr.add (bad 0) (pos 0) (pos 0), .add (pos 0) (bad 0) (pos 0), .add (pos 0) (pos 0) (imm 0)].map
      Instr.wellFormed = [false, false, false] := by decide
theorem test_wf_mul :
    [Instr.mul (bad 0) (pos 0) (pos 0), .mul (pos 0) (bad 0) (pos 0), .mul (pos 0) (pos 0) (imm 0)].map
      Instr.wellFormed = [false, false, false] := by decide
theorem test_wf_inp : [Instr.inp (imm 0), .inp (bad 0)].map Instr.wellFormed = [false, false] := by
  decide
theorem test_wf_out : (Instr.out (bad 0)).wellFormed = false := by decide
theorem test_wf_tjmp :
    [Instr.tjmp (bad 0) (imm 0), .tjmp (imm 0) (bad 0)].map Instr.wellFormed = [false, false] := by
  decide
theorem test_wf_fjmp :
    [Instr.fjmp (bad 0) (imm 0), .fjmp (imm 0) (bad 0)].map Instr.wellFormed = [false, false] := by
  decide
theorem test_wf_lt :
    [Instr.lt (bad 0) (pos 0) (pos 0), .lt (pos 0) (bad 0) (pos 0), .lt (pos 0) (pos 0) (imm 0)].map
      Instr.wellFormed = [false, false, false] := by decide
theorem test_wf_eq :
    [Instr.eq (bad 0) (pos 0) (pos 0), .eq (pos 0) (bad 0) (pos 0), .eq (pos 0) (pos 0) (imm 0)].map
      Instr.wellFormed = [false, false, false] := by decide
theorem test_wf_rbs : (Instr.rbs (bad 0)).wellFormed = false := by decide
theorem test_wf_accepts :
    (Instr.add (imm 1) (rel 2) (rel 3)).wellFormed = true ∧ Instr.halt.wellFormed = true := by decide

/-! ### Decoding: words built by R81 from opcode + 100 m1 + 1000 m2 + 10000 m3 (95_test_vectors.md 2.1) -/

/-- 21101: opcode 01, modes 1, 1, 2. -/
theorem test_decode_add : decode ⟨21101, 3, 4, 0⟩ = .ok (.add (imm 3) (imm 4) (rel 0)) := by decide
/-- 1002: opcode 02, modes 0, 1, 0 (D00's own example, R98). -/
theorem test_decode_mul : decode ⟨1002, 4, 3, 4⟩ = .ok (.mul (pos 4) (imm 3) (pos 4)) := by decide
/-- 203: opcode 03, mode 2. -/
theorem test_decode_inp : decode ⟨203, -10, 99, 0⟩ = .ok (.inp (rel (-10))) := by decide
/-- 204: opcode 04, mode 2. -/
theorem test_decode_out : decode ⟨204, -1, 99, 0⟩ = .ok (.out (rel (-1))) := by decide
/-- 2105: opcode 05, modes 1, 2. -/
theorem test_decode_tjmp : decode ⟨2105, 1, 0, 0⟩ = .ok (.tjmp (imm 1) (rel 0)) := by decide
/-- 1006: opcode 06, modes 0, 1. -/
theorem test_decode_fjmp : decode ⟨1006, 101, 0, 99⟩ = .ok (.fjmp (pos 101) (imm 0)) := by decide
/-- 2107: opcode 07, modes 1, 2, 0. -/
theorem test_decode_lt : decode ⟨2107, 1, 2, 3⟩ = .ok (.lt (imm 1) (rel 2) (pos 3)) := by decide
/-- 1008: opcode 08, modes 0, 1, 0. -/
theorem test_decode_eq : decode ⟨1008, 100, 16, 101⟩ = .ok (.eq (pos 100) (imm 16) (pos 101)) := by
  decide
/-- 109: opcode 09, mode 1. -/
theorem test_decode_rbs : decode ⟨109, 1, 0, 0⟩ = .ok (.rbs (imm 1)) := by decide
/-- 99, and with higher digits 199, 1099, 10099, 12345678999 (R88). -/
theorem test_decode_halt :
    ([99, 199, 1099, 10099, 12345678999] : List W64).map (fun w => decode ⟨w, 0, 0, 0⟩ == .ok .halt) =
      [true, true, true, true, true] := by decide
/-- 100001: the digit of weight 10^5 is ignored (R88). -/
theorem test_decode_higher_digit : decode ⟨100001, 1, 2, 3⟩ = .ok (.add (pos 1) (pos 2) (pos 3)) := by
  decide
/-- MAX is `lt` with mode digits 8, 5, 7. -/
theorem test_decode_max :
    decode ⟨maxW, 0, 0, 0⟩ = .ok (.lt ⟨.reserved 5, 0⟩ ⟨.reserved 2, 0⟩ ⟨.reserved 4, 0⟩) := by decide
/-- Opcodes 0, 10, 98, 0, 0 (R94). -/
theorem test_decode_unknown :
    ([0, 10, 98, 100, 300] : List W64).map (fun w => decode ⟨w, 0, 0, 0⟩ == .error (.unknownOpcode w)) =
      [true, true, true, true, true] := by decide
/-- Negative words (R84): -1 and -99 among them. -/
theorem test_decode_negative :
    ([-1, -99, -1101, minW] : List W64).map
      (fun w => decode ⟨w, 0, 0, 0⟩ == .error (.negativeWord w)) = [true, true, true, true] := by decide
/-- The canonical word of R95 for `add #3, #4 -> [rb+0]`. -/
theorem test_encode : encode (.add (imm 3) (imm 4) (rel 0)) = [21101, 3, 4, 0] := by decide

/-- The host's numbering: word 0 in bits 63 .. 0, word 1 in bits 127 .. 64 (log 34); 104, 7 is `out #7`. -/
theorem test_table_word : decodeTableWord 128 (104 + 7 * 2 ^ 64) = some (.out (imm 7)) := by decide
/-- Placed at reset, the instruction `out #7` runs in the next step and latches 7. -/
theorem test_withFetchWord :
    (stepped (State.reset.withFetchWord 128 (104 + 7 * 2 ^ 64))).phase = .outWait 7 := by decide
/-- Every opcode of the table runs from reset with operand words of zeros: none is refused. -/
theorem test_withFetchWord_all :
    ([1, 2, 3, 4, 5, 6, 7, 8, 9, 99] : List Nat).map
      (fun w => (stepped (State.reset.withFetchWord 64 w)).isFaulted) =
      [false, false, false, false, false, false, false, false, false, false] := by decide

/-! ### One step each (95_test_vectors.md 2.2 to 2.7) -/

/-- `1101,MAX,1,5,99,0`: wraps to MIN. -/
theorem test_add_wraps : (stepped (core [1101, maxW, 1, 5, 99, 0])).mem.read 5 = minW := by decide
/-- `1101,1,2,MAX,99`: the highest legal address. -/
theorem test_add_top_address :
    (stepped (core [1101, 1, 2, maxW, 99])).mem.read 9223372036854775807 = 3 := by decide
/-- `1002,4,3,4,33`: 33 * 3 = 99 into cell 4, a source cell. -/
theorem test_mul_aliases : (stepped (core [1002, 4, 3, 4, 33])).mem.read 4 = 99 := by decide
/-- `1102,MIN,-1,5,99,0`: wraps to MIN. -/
theorem test_mul_wraps : (stepped (core [1102, minW, -1, 5, 99, 0])).mem.read 5 = minW := by decide
/-- `1107,-1,0,5,99,7`: signed. -/
theorem test_lt_signed : (stepped (core [1107, -1, 0, 5, 99, 7])).mem.read 5 = 1 := by decide
/-- `1107,2,1,5,99,7`: 0 is stored, the old 7 is not kept. -/
theorem test_lt_stores_zero : (stepped (core [1107, 2, 1, 5, 99, 7])).mem.read 5 = 0 := by decide
/-- `1108,MIN,MIN,5,99,7`. -/
theorem test_eq_true : (stepped (core [1108, minW, minW, 5, 99, 7])).mem.read 5 = 1 := by decide
/-- `1108,MIN,MAX,5,99,7`. -/
theorem test_eq_false : (stepped (core [1108, minW, maxW, 5, 99, 7])).mem.read 5 = 0 := by decide
/-- `1105,-1,4,99,...`: taken, negative counts as true. -/
theorem test_tjmp_taken : (stepped (core [1105, -1, 4, 99, 104, 7, 99])).ip = 4 := by decide
/-- `5,0,4,99,104,7,99`: the target is the content of cell 4. -/
theorem test_tjmp_position_target : (stepped (core [5, 0, 4, 99, 104, 7, 99])).ip = 104 := by decide
/-- `6,3,4,0,5,99`: cell 3 is 0, the target is the content of cell 4. -/
theorem test_fjmp_taken : (stepped (core [6, 3, 4, 0, 5, 99])).ip = 5 := by decide
/-- `1106,1,4,99,...`: not taken. -/
theorem test_fjmp_not_taken : (stepped (core [1106, 1, 4, 99, 104, 7, 99])).ip = 3 := by decide
/-- `209,2,99`: the operand is read through the old base, cell 2 holds 99. -/
theorem test_rbs_relative : (stepped (core [209, 2, 99])).rb = 99 := by decide
/-- `109,1` with `rb = MAX`: wraps to MIN. -/
theorem test_rbs_wraps : (stepped { core [109, 1] with rb := maxW }).rb = minW := by decide
/-- `99`: halted, `ip = 1 = N`, one event with the final memory. -/
theorem test_halt :
    (stepped (core [99])).phase = .halted ∧ (stepped (core [99])).halted = true ∧
      (stepped (core [99])).ip = 1 ∧ (stepped (core [99])).events = [⟨.halted, [(0, 99)]⟩] := by decide
/-- `3,9,...`, first half: `ip` past the instruction, AboutToInput, nothing taken. -/
theorem test_inp_first_half :
    (stepped ((core [3, 9]).supply [8])).phase = .inWait ⟨.position, 9⟩ ∧
      (stepped ((core [3, 9]).supply [8])).ip = 2 ∧
      (stepped ((core [3, 9]).supply [8])).inputs = [8] := by decide
/-- Second half: the oldest value, stored. -/
theorem test_inp_second_half :
    (stepped { (core [3, 9]).supply [8, 5] with phase := .inWait ⟨.position, 9⟩ }).mem.read 9 = 8 ∧
      (stepped { (core [3, 9]).supply [8, 5] with phase := .inWait ⟨.position, 9⟩ }).inputs = [5] := by
  decide
/-- `104,1125899906842624,99`: the literal is latched. -/
theorem test_out_first_half :
    (stepped (core [104, 1125899906842624, 99])).phase = .outWait 1125899906842624 := by decide
/-- Without a sink the value is dropped and AfterOutput still emitted (D10). -/
theorem test_out_no_sink :
    (stepped { core [104, 5, 99] with outAttached := false, phase := .outWait 5 }).outputs = [] ∧
      (stepped { core [104, 5, 99] with outAttached := false, phase := .outWait 5 }).phase = .run := by
  decide

/-- The faults of 2.7, one step each: cause and `ip`. -/
theorem test_fault_end_of_program :
    (stepped (core [])).phase = .faulted (.haltedAccess 0) ∧
      (stepped (coreAt [2, 0, 0, 0] 4)).phase = .faulted (.haltedAccess 4) := by decide
theorem test_fault_incomplete :
    (stepped (core [1, 0, 0])).phase = .faulted (.incompleteInstruction 3) ∧
      (stepped (core [1301])).phase = .faulted (.incompleteInstruction 1) := by decide
theorem test_fault_opcode :
    (stepped (core [300])).phase = .faulted (.invalidOpcode 300) ∧ (stepped (core [300])).ip = 1 ∧
      (stepped (core [-1])).phase = .faulted (.invalidOpcode (-1)) := by decide
theorem test_fault_mode :
    (stepped (core [3101, -1, 0, 0])).phase = .faulted (.invalidParamMode 2 3) ∧
      (stepped (core [3101, -1, 0, 0])).ip = 3 ∧
      (stepped (core [10001, 0, 0, 0])).phase = .faulted (.invalidParamMode 3 1) ∧
      (stepped (core [103, 0])).phase = .faulted (.invalidParamMode 1 1) := by decide
/-- Parameter 1's bad address comes before parameter 2's bad digit. -/
theorem test_fault_priority :
    (stepped (core [3001, -1, 0, 0])).phase = .faulted (.addressRange (-1)) ∧
      (stepped (core [3001, -1, 0, 0])).ip = 2 := by decide
/-- `204,1` with `rb = MAX`: the exact sum 2^63. -/
theorem test_fault_exact_sum :
    (stepped { core [204, 1, 99] with rb := maxW }).phase =
      .faulted (.addressRange 9223372036854775808) := by decide
theorem test_fault_not_connected :
    (stepped { State.load [3, 0] false true with ip := 2, phase := .inWait ⟨.position, 0⟩ }).phase =
      .faulted .inputNotConnected := by decide

/-! ### Reset, loader, assembler, host -/

theorem test_reset : State.reset.mem.wf = true ∧ State.reset.ip = 0 ∧ State.reset.rb = 0 ∧
    State.reset.halted = false ∧ State.reset.phase = .run := by decide
/-- A cell that becomes 0 is not listed. -/
theorem test_memory_canonical : Memory.write [(1, 5), (3, 7)] 3 0 = [(1, 5)] ∧
    Memory.write [(1, 5), (3, 7)] 2 9 = [(1, 5), (2, 9), (3, 7)] := by decide
/-- S1's text, shortened (R100). -/
theorem test_loader :
    parseProgram "1,9,-10, 3\n".toList = .ok [1, 9, -10, 3] ∧
      parseProgram "".toList = .error .emptyText ∧ parseProgram "1,,2".toList = .error .badToken ∧
      parseProgram "9223372036854775808".toList = .error .outOfRange := by decide
/-- 95_test_vectors.md 2.8. -/
theorem test_assembler_small :
    assemble ["var x = 5".toList, "out x".toList, "end".toList] = .ok [1005, 0, 4, 5, 4, 3, 99] ∧
      assemble ["out y".toList] = .error (.undeclaredVariable "y".toList) ∧
      assemble ["tjmp 1 @nowhere".toList] = .error (.invalidLabel "nowhere".toList) := by decide +kernel
/-- R102: a tab separates tokens, a carriage return does not. -/
theorem test_assembler_blanks :
    assemble ["\tout \t 7 # seven".toList, "end".toList] = .ok [104, 7, 99] ∧
      assemble ["out\r7".toList] = .error .invalidInstruction := by decide +kernel
/-- The model's choice of log 41: no plus sign, leading zeros accepted. -/
theorem test_assembler_integers :
    assemble ["out +7".toList] = .error .invalidInstruction ∧
      assemble ["out 007".toList] = .ok [104, 7] := by decide +kernel
/-- The model's choices of log 39 and log 40. -/
theorem test_assembler_choices :
    assemble ["tjmp 1 @stop".toList, "stop:".toList] = .ok [1105, 1, 3] ∧
      assemble ["out 9223372036854775808".toList] = .error .literalOutOfRange := by decide +kernel
/-- S8 and R115. -/
theorem test_assembler_factorial :
    assemble (["var max", "var it = 1", "var fact = 1", "var done", "in -> max", "fjmp max @done",
      "loop:", "    mul fact it -> fact", "    eq max it -> done", "    add it 1 -> it",
      "    fjmp done @loop", "done:", "    out fact", "end"].map String.toList) =
      .ok [1005, 0, 7, 0, 1, 1, 0, 3, 3, 1006, 3, 27, 2, 5, 4, 5, 8, 3, 4, 6, 1001, 4, 1, 4, 1006, 6,
        12, 4, 5, 99] := by decide +kernel
/-- One `Resume` of `104,5,99`: AboutToOutput. -/
theorem test_resume :
    (Machine.resume 5 (core [104, 5, 99])).2 = .event ⟨.aboutToOutput, [(0, 104), (1, 5), (2, 99)]⟩ := by
  decide
/-- A core at AboutToInput with an empty queue is held back; the last core of a ring feeds the first. -/
theorem test_network :
    (Network.resume 5 0 [{ core [3, 0] with phase := .inWait ⟨.position, 0⟩ }]).2 = .heldBack ∧
      ((Network.resume 5 1 [core [99], { core [104, 7] with phase := .outWait 7 }]).1.map
        fun s => s.inputs) = [[7], []] := by decide

/-! ### Witnesses: for each obligation with hypotheses, states and operands that meet them all -/

theorem witness_HigherDigitsAreIgnored :
    (let x : Window := ⟨101002, 4, 3, 4⟩
     let y : Window := ⟨1002, 4, 3, 4⟩
     0 ≤ x.word.toInt ∧ 0 ≤ y.word.toInt ∧ x.word.toNat % 100 = Opcode.mul.code ∧
      x.word.toNat % 10 ^ (Opcode.mul.arity + 2) = y.word.toNat % 10 ^ (Opcode.mul.arity + 2) ∧
      x.p1 = y.p1 ∧ x.p2 = y.p2 ∧ x.p3 = y.p3) ∧
    (let x : Window := ⟨12345678999, 1, 2, 3⟩
     let y : Window := ⟨99, 0, 0, 0⟩
     0 ≤ x.word.toInt ∧ 0 ≤ y.word.toInt ∧ x.word.toNat % 100 = Opcode.halt.code ∧
      x.word.toNat % 10 ^ (Opcode.halt.arity + 2) = y.word.toNat % 10 ^ (Opcode.halt.arity + 2) ∧
      ¬ 1 ≤ Opcode.halt.arity) := by decide

theorem witness_OpcodeMapIsTheTable_named :
    (0 ≤ (1 : W64).toInt ∧ (1 : W64).toNat % 100 = 1) ∧ (0 ≤ (9 : W64).toInt ∧ (9 : W64).toNat % 100 = 9) ∧
      (0 ≤ (99 : W64).toInt ∧ (99 : W64).toNat % 100 = 99) ∧
      (0 ≤ maxW.toInt ∧ maxW.toNat % 100 = 7) := by decide

/-- Opcodes 0, 10 and 98, the ends of the illegal ranges. -/
theorem witness_OpcodeMapIsTheTable_illegal :
    ((core [0]).canFetch ∧ 0 ≤ (core [0]).wordAtIp.toInt ∧ (core [0]).wordAtIp.toNat % 100 = 0) ∧
      ((core [10]).canFetch ∧ 0 ≤ (core [10]).wordAtIp.toInt ∧
        10 ≤ (core [10]).wordAtIp.toNat % 100 ∧ (core [10]).wordAtIp.toNat % 100 ≤ 98) ∧
      ((core [98]).canFetch ∧ 0 ≤ (core [98]).wordAtIp.toInt ∧
        10 ≤ (core [98]).wordAtIp.toNat % 100 ∧ (core [98]).wordAtIp.toNat % 100 ≤ 98) := by decide

theorem witness_AbsentModeDigitsArePosition :
    (99 : W64).toNat < 10 ^ (1 + 1) ∧ (9999 : W64).toNat < 10 ^ (3 + 1) := by decide

theorem witness_NegativeWordRaisesInvalidOpcode :
    ((core [-1]).canFetch ∧ (core [-1]).wordAtIp.toInt < 0) ∧
      ((core [minW]).canFetch ∧ (core [minW]).wordAtIp.toInt < 0) := by decide

theorem witness_RunningOffTheProgramRaises :
    ∀ s ∈ [core [], coreAt [99] 1, coreAt [99] maxW], s.phase = .run ∧ (s.n : Int) ≤ s.ip.toInt := by
  decide +kernel

theorem witness_NegativeIpRaisesAddressRange :
    ∀ s ∈ [coreAt [99] (-1), coreAt [] minW], s.phase = .run ∧ s.ip.toInt < 0 := by decide

theorem witness_StepRunsTheDecodedInstruction :
    (core [1101, 2, 3, 0]).canFetch ∧
      decode ((core [1101, 2, 3, 0]).advance.window (core [1101, 2, 3, 0]).wordAtIp) =
        .ok (.add (imm 2) (imm 3) (pos 0)) := by decide

theorem witness_StepRunsThePlacedInstruction :
    let s := coreAt [7, 104, 7] 1
    let i := Instr.out (imm 7)
    s.canFetch ∧ s.ip.toInt + (i.length : Int) ≤ (s.n : Int) ∧ s.n ≤ Config.programMax ∧
      ∀ k, k < i.length → s.mem.read (s.ip.toNat + k) = (encode i).getD k 0#64 := by decide

theorem witness_StepAgreesWithPrintedStep :
    (core [99]).n ≤ Config.programMax ∧ ({ core [] with n := Config.programMax } : State).n ≤
      Config.programMax := by decide

theorem witness_CompletedCycleFetchedInsideProgram :
    let s := core [1101, 2, 3, 0]
    s.phase = .run ∧ s.n ≤ Config.programMax ∧ step s = .next (stepped s) ∧
      (stepped s).isFaulted = false := ⟨by decide, by decide, rfl, by decide⟩

theorem witness_StoreIsSeenByTheNextFetch :
    let s := coreAt [3, 2, 0] 2
    s.mem.wf = true ∧ destAddr ⟨.position, 2⟩ s.rb = s.ip.toInt ∧ s.ip.toInt < (s.n : Int) ∧
      store ⟨.position, 2⟩ 99 s = .ok () { s with mem := s.mem.write 2 99 } := by decide

theorem witness_ReservedModeDigitRaises_first :
    ∀ d ∈ ([0, 6] : List (Fin 7)), (Instr.out (bad d)).params = bad d :: [] ∧
      (bad d).mode = .reserved d ∧ (coreAt [304, 0] 1).roomFor 1 := by decide

theorem witness_ReservedModeDigitRaises_second :
    (Instr.tjmp (imm 1) (bad 6)).params = imm 1 :: bad 6 :: [] ∧
      valueOf (coreAt [9105, 1, 0] 1) (imm 1) = some 1 ∧ (bad 6).mode = .reserved 6 ∧
      (coreAt [9105, 1, 0] 1).roomFor 2 := by decide

theorem witness_ReservedModeDigitRaises_third :
    let s := coreAt [30001, 0, 1, 0] 1
    (Instr.add (pos 0) (rel 1) (bad 0)).params = [pos 0, rel 1, bad 0] ∧
      valueOf s (pos 0) = some 30001 ∧ valueOf s (rel 1) = some 0 ∧ (bad 0).mode = .reserved 0 ∧
      s.roomFor 3 := by decide

theorem witness_ReservedModeDigitRaises_never :
    let s := coreAt [104, 7] 1
    (Instr.out (imm 7)).wellFormed = true ∧ s.isFaulted = false ∧
      exec (.out (imm 7)) s = .next (execd (.out (imm 7)) s) := ⟨by decide, by decide, rfl⟩

theorem witness_ImmediateDestinationRaises :
    (let s := coreAt [10001, 0, 0, 0] 1
     s.roomFor 3 ∧ valueOf s (pos 0) = some 10001 ∧ (imm 0).mode = .immediate) ∧
    ((coreAt [103, 0] 1).roomFor 1 ∧ (imm 0).mode = .immediate) := by decide

theorem witness_MissingParameterWordRaises :
    ((Instr.out (imm 0)).params ≠ [] ∧
      (coreAt [104] 1).ip.toInt = ((coreAt [104] 1).n : Int)) ∧
    (let s := coreAt [1105, 1] 1
     (Instr.tjmp (imm 1) (imm 0)).params = imm 1 :: imm 0 :: [] ∧ valueOf s (imm 1) = some 1 ∧
      s.ip.toInt + 1 = (s.n : Int) ∧ s.n ≤ Config.programMax) ∧
    (let s := coreAt [1101, 1, 1] 1
     (Instr.add (imm 1) (imm 1) (pos 0)).params = [imm 1, imm 1, pos 0] ∧
      valueOf s (imm 1) = some 1 ∧ s.ip.toInt + 2 = (s.n : Int) ∧ s.n ≤ Config.programMax) := by decide

/-- Addresses -1 and 2^63, the two nearest that do not exist. -/
theorem witness_BadOperandAddressRaises :
    (let s := coreAt [4, -1] 1
     (Instr.out (pos (-1))).params = pos (-1) :: [] ∧
      (Instr.out (pos (-1))).opcode.kinds = .value :: [] ∧ s.roomFor 1 ∧
      readAddr s (pos (-1)) = some (-1) ∧ ¬ LegalAddr (-1)) ∧
    (let s : State := { coreAt [2105, 1, 1] 1 with rb := maxW }
     (Instr.tjmp (imm 1) (rel 1)).params = imm 1 :: rel 1 :: [] ∧
      (Instr.tjmp (imm 1) (rel 1)).opcode.kinds = .value :: .value :: [] ∧ s.roomFor 2 ∧
      valueOf s (imm 1) = some 1 ∧ readAddr s (rel 1) = some 9223372036854775808 ∧
      ¬ LegalAddr 9223372036854775808) := by decide

theorem witness_EveryFaultHasItsCondition :
    exec (.out (pos (-1))) (coreAt [4, -1] 1) =
        .next (execd (.out (pos (-1))) (coreAt [4, -1] 1)) ∧
      exec .halt (core [99]) = .next (execd .halt (core [99])) := ⟨rfl, rfl⟩

theorem witness_BadDestinationAddressRaisesLast :
    let s := coreAt [1, 0, 0, -1] 1
    s.roomFor 3 ∧ valueOf s (pos 0) = some 1 ∧ destOf (pos (-1)) = some ⟨.position, -1⟩ ∧
      ¬ LegalAddr (destAddr ⟨.position, -1⟩ s.rb) := by decide

/-- For `add`, `mul`, `lt`, `eq`: the destination at both ends of memory, in both its modes. -/
theorem witness_storing_results :
    (let s := coreAt [1101, 1, 2, maxW, 99] 1
     s.roomFor 3 ∧ valueOf s (imm 1) = some 1 ∧ valueOf s (pos 4) = some 99 ∧
      destOf (pos maxW) = some ⟨.position, maxW⟩ ∧ LegalAddr (destAddr ⟨.position, maxW⟩ s.rb)) ∧
    (let s : State := { coreAt [21101, 1, 2, -10] 1 with rb := 10 }
     s.roomFor 3 ∧ valueOf s (imm 1) = some 1 ∧ valueOf s (rel (-10)) = some 21101 ∧
      destOf (rel (-10)) = some ⟨.relative, -10⟩ ∧
      LegalAddr (destAddr ⟨.relative, -10⟩ s.rb)) := by decide

/-- The other clauses of the statements about `lt` and `eq`. -/
theorem witness_compare_clauses :
    exec (.lt (imm 1) (imm 2) (pos 0)) (coreAt [1107, 1, 2, 0] 1) =
        .next (execd (.lt (imm 1) (imm 2) (pos 0)) (coreAt [1107, 1, 2, 0] 1)) ∧
      exec (.eq (imm 1) (imm 2) (pos 0)) (coreAt [1108, 1, 2, 0] 1) =
        .next (execd (.eq (imm 1) (imm 2) (pos 0)) (coreAt [1108, 1, 2, 0] 1)) ∧
      ((core []).phase = .run ∧ (core []).pastEnd) ∧
      (0 ≤ (2107 : W64).toInt ∧ (2107 : W64).toNat % 100 = 7) ∧
      (0 ≤ (1008 : W64).toInt ∧ (1008 : W64).toNat % 100 = 8) :=
  ⟨rfl, rfl, by decide, by decide, by decide⟩

/-- For `tjmp` and `fjmp`: the condition 0, -1 and MIN. -/
theorem witness_jump_results :
    ((coreAt [1105, 0, 0] 1).roomFor 2 ∧ valueOf (coreAt [1105, 0, 0] 1) (imm 0) = some 0 ∧
      valueOf (coreAt [1105, 0, 0] 1) (pos 0) = some 1105) ∧
    ((coreAt [5, 1, 0] 1).roomFor 2 ∧ valueOf (coreAt [5, 1, 0] 1) (imm (-1)) = some (-1) ∧
      valueOf (coreAt [5, 1, 0] 1) (rel 1) = some 1) ∧
    valueOf (coreAt [5, 1, 0] 1) (imm minW) = some minW := by decide

theorem witness_fjmp_clauses :
    exec (.fjmp (imm 0) (imm 4)) (coreAt [1106, 0, 4] 1) =
        .next (execd (.fjmp (imm 0) (imm 4)) (coreAt [1106, 0, 4] 1)) ∧
      (0 ≤ (1006 : W64).toInt ∧ (1006 : W64).toNat % 100 = 6) := ⟨rfl, by decide⟩

theorem witness_RbsAddsToRelativeBase :
    (coreAt [209, 2, 99] 1).roomFor 1 ∧ valueOf (coreAt [209, 2, 99] 1) (rel 2) = some 99 := by decide

theorem witness_EndHaltsTheRun :
    ((core [99]).canFetch ∧ 0 ≤ (core [99]).wordAtIp.toInt ∧ (core [99]).wordAtIp.toNat % 100 = 99) ∧
    ((core [12345678999]).canFetch ∧ 0 ≤ (core [12345678999]).wordAtIp.toInt ∧
      (core [12345678999]).wordAtIp.toNat % 100 = 99) ∧
    ((core []).phase = .run ∧ (core []).pastEnd) ∧ (stepped (core [99])).phase = .halted := by decide

theorem witness_InStoresTheNextInput :
    (let s := coreAt [3, maxW] 1
     s.roomFor 1 ∧ destOf (pos maxW) = some ⟨.position, maxW⟩ ∧ s.inAttached = true ∧
      LegalAddr (destAddr ⟨.position, maxW⟩ s.rb)) ∧
    (let s : State := { (coreAt [203, -10] 1).supply [42] with rb := 10 }
     s.roomFor 1 ∧ destOf (rel (-10)) = some ⟨.relative, -10⟩ ∧ s.inAttached = true ∧
      LegalAddr (destAddr ⟨.relative, -10⟩ s.rb)) := by decide

theorem witness_OutSendsTheLatchedValue :
    ((coreAt [4, 100, 99] 1).roomFor 1 ∧ valueOf (coreAt [4, 100, 99] 1) (pos 100) = some 0) ∧
      (stepped (core [104, 5, 99])).phase = .outWait 5 ∧
      exec (.out (imm 5)) (coreAt [104, 5] 1) = .next (execd (.out (imm 5)) (coreAt [104, 5] 1)) ∧
      ((core []).phase = .run ∧ (core []).pastEnd) ∧
      (0 ≤ (204 : W64).toInt ∧ (204 : W64).toNat % 100 = 4) :=
  ⟨by decide, by decide, rfl, by decide, by decide⟩

theorem witness_InWithoutSourceRaises :
    (stepped (State.load [3, 0] false false)).phase = .inWait ⟨.position, 0⟩ ∧
      (stepped (State.load [3, 0] false false)).inAttached = false := by decide

theorem witness_InBadDestinationLosesTheValue :
    let s := stepped ((core [3, -1, 99]).supply [5])
    s.phase = .inWait ⟨.position, -1⟩ ∧ s.inAttached = true ∧
      ¬ LegalAddr (destAddr ⟨.position, -1⟩ s.rb) := by decide

/-- A completed store, a faulted one, and an immediate destination. -/
theorem witness_StoringInstructionsFrame :
    (let i := Instr.add (imm 1) (imm 2) (pos 0)
     exec i (coreAt [1101, 1, 2, 0] 1) = .next (execd i (coreAt [1101, 1, 2, 0] 1))) ∧
      destOf (pos 0) = some ⟨.position, 0⟩ ∧ ((1 : Nat) : Int) ≠ destAddr ⟨.position, 0⟩ 0 ∧
      (let i := Instr.eq (imm 1) (imm 2) (imm 0)
       exec i (coreAt [11108, 1, 2, 0] 1) = .next (execd i (coreAt [11108, 1, 2, 0] 1))) ∧
      destOf (imm 0) = none := ⟨rfl, rfl, by decide, rfl, rfl⟩

theorem witness_JumpsFrame :
    exec (.tjmp (imm 1) (imm 4)) (coreAt [1105, 1, 4] 1) =
        .next (execd (.tjmp (imm 1) (imm 4)) (coreAt [1105, 1, 4] 1)) ∧
      exec (.fjmp (imm 1) (pos (-1))) (coreAt [106, 1, -1] 1) =
        .next (execd (.fjmp (imm 1) (pos (-1))) (coreAt [106, 1, -1] 1)) := ⟨rfl, rfl⟩

theorem witness_BaseAndHaltFrame :
    exec (.rbs (imm 5)) (coreAt [109, 5] 1) = .next (execd (.rbs (imm 5)) (coreAt [109, 5] 1)) ∧
      exec .halt (coreAt [99] 1) = .next (execd .halt (coreAt [99] 1)) := ⟨rfl, rfl⟩

theorem witness_PortInstructionsFrame :
    exec (.inp (pos 0)) (coreAt [3, 0] 1) = .next (execd (.inp (pos 0)) (coreAt [3, 0] 1)) ∧
      exec (.out (pos 0)) (coreAt [4, 0] 1) = .next (execd (.out (pos 0)) (coreAt [4, 0] 1)) ∧
      (let s := stepped ((core [3, 0]).supply [8])
       s.phase = .inWait ⟨.position, 0⟩ ∧ step s = .next (stepped s) ∧
        ((1 : Nat) : Int) ≠ destAddr ⟨.position, 0⟩ s.rb) ∧
      (let s := stepped (core [104, 5])
       s.phase = .outWait 5 ∧ step s = .next (stepped s)) :=
  ⟨rfl, rfl, ⟨by decide, rfl, by decide⟩, by decide, rfl⟩

/-- The invariant at a core inside `out`, with one event behind it. -/
theorem witness_StepKeepsTheInvariant :
    let s := stepped (core [104, 5, 99])
    s.Inv ∧ step s = .next (stepped s) :=
  ⟨⟨by decide, by decide, by decide, by decide, by decide⟩, rfl⟩

theorem witness_LoadedCoreMeetsTheInvariant : ([99] : List W64).length ≤ Config.programMax := by decide

theorem witness_FaultLeavesMemoryAndOutput :
    (let s := core [0]
     step s = .next (stepped s) ∧ (stepped s).phase = .faulted (.invalidOpcode 0) ∧
      ∀ d, s.phase ≠ .inWait d) ∧
    (let s := stepped ((core [3, -1, 99]).supply [5])
     step s = .next (stepped s) ∧ (stepped s).phase = .faulted (.addressRange (-1))) :=
  ⟨⟨rfl, by decide, fun _ h => Phase.noConfusion (show Phase.run = Phase.inWait _ from h)⟩, ⟨rfl, by decide⟩⟩

theorem witness_OnlyRbsWritesRelativeBase :
    step (core [109, 5]) = .next (stepped (core [109, 5])) ∧
      (stepped (core [109, 5])).rb ≠ (core [109, 5]).rb := ⟨rfl, by decide⟩

theorem witness_OnlyEndSetsHalted :
    step (core [99]) = .next (stepped (core [99])) ∧
      (stepped (core [99])).halted ≠ (core [99]).halted ∧ (stepped (core [99])).phase = .halted :=
  ⟨rfl, by decide, by decide⟩

theorem witness_LengthAndAttachmentsNeverChange :
    step (core [1101, 1, 2, 0]) = .next (stepped (core [1101, 1, 2, 0])) := rfl

theorem witness_OnlyInAndOutTouchThePorts :
    exec (.rbs (imm 5)) (coreAt [109, 5] 1) = .next (execd (.rbs (imm 5)) (coreAt [109, 5] 1)) ∧
      (let s := stepped ((core [3, 0]).supply [8])
       step s = .next (stepped s) ∧ (stepped s).inputs ≠ s.inputs ∧
        (stepped s).inputsTaken ≠ s.inputsTaken) ∧
      (let s := stepped (core [104, 5])
       step s = .next (stepped s) ∧ (stepped s).outputs ≠ s.outputs) ∧
      (step (core [3, 0]) = .next (stepped (core [3, 0])) ∧
        (stepped (core [3, 0])).phase = .inWait ⟨.position, 0⟩) ∧
      (step (core [104, 5]) = .next (stepped (core [104, 5])) ∧
        (stepped (core [104, 5])).phase = .outWait 5) :=
  ⟨rfl, ⟨rfl, by decide, by decide⟩, ⟨rfl, by decide⟩, ⟨rfl, by decide⟩, rfl, by decide⟩

/-- Both terminal phases, reached. -/
theorem witness_StepStopsExactlyWhenEnded :
    (stepped (core [99])).phase = .halted ∧ (stepped (core [])).phase = .faulted (.haltedAccess 0) := by
  decide

theorem witness_StepIgnoresInputsUnlessWaiting :
    (∀ d, (core [109, 5]).phase ≠ .inWait d) ∧ step (core [109, 5]) = .next (stepped (core [109, 5])) :=
  ⟨fun _ h => Phase.noConfusion (show Phase.run = Phase.inWait _ from h), rfl⟩

theorem witness_StepIgnoresItsHistory :
    step (stepped (core [104, 5])) = .next (stepped (stepped (core [104, 5]))) := rfl

theorem witness_UnwrittenCellsReadZero :
    (LegalAddr 0 ∧ LegalAddr 9223372036854775807) ∧ (∀ v, ((1 : Nat), v) ∉ ([] : Memory)) ∧
      ([99] : List W64).length ≤ 1 := ⟨by decide, fun v h => absurd h (List.not_mem_nil), by decide⟩

theorem witness_StoredCellReadsBack :
    (core [99]).mem.wf = true ∧
      (core [99]).memWrite 9223372036854775807 5 =
        .ok () { core [99] with mem := (core [99]).mem.write 9223372036854775807 5 } ∧
      LegalAddr 0 ∧ LegalAddr 9223372036854775807 := by decide

/-- One case for each result of `Resume`. -/
theorem witness_ResumeReturnsTheNextEvent :
    (Machine.resume 5 (core [99])).2 = .event ⟨.halted, [(0, 99)]⟩ ∧
      (Machine.resume 5 (core [])).2 = .fault (.haltedAccess 0) ∧
      (Machine.resume 5 (stepped (core [99]))).2 = .ended ∧
      (Machine.resume 3 (core [1105, 1, 0])).2 = .outOfFuel := by decide

theorem witness_ResumeFinishesThePendingTransfer :
    (let s := stepped ((core [3, 0]).supply [8])
     s.phase = .inWait ⟨.position, 0⟩ ∧ s.inAttached = true ∧
      LegalAddr (destAddr ⟨.position, 0⟩ s.rb)) ∧
    (stepped (core [104, 5])).phase = .outWait 5 := by decide

theorem witness_MoreFuelSameResume :
    Machine.resume 2 (core [109, 5, 99]) = Machine.resume 5 (core [109, 5, 99]) ∧
      (Machine.resume 2 (core [109, 5, 99])).2 ≠ .outOfFuel := by decide

theorem witness_RunReturnsTheFinalMemory :
    Machine.run 3 3 [1002, 4, 3, 4, 33] true true [] =
        .finalMemory [(0, 1002), (1, 4), (2, 3), (3, 4), (4, 99)] ∧
      Machine.run 3 3 [0] true true [] = .fault (.invalidOpcode 0) := by decide

theorem witness_NetworkResumeTouchesOnlyTheNextQueue :
    let net : Network := [core [99], core [99], core [104, 5]]
    net[2]? = some (core [104, 5]) ∧ 2 ≤ net.length ∧ (1 ≠ 2 ∧ 1 ≠ (2 + 1) % net.length) ∧
      net[(2 + 1) % net.length]? = some (core [99]) := by decide

theorem witness_HeaderJumpsOverTheVariables :
    0 < 4 ∧ (asmHeader 4 ++ [0, 1, 1, 0, 99]).length ≤ Config.programMax ∧
      3 + 4 ≤ Config.programMax := by decide

end Sys2Proof.Tests
end

section
/-! Memory reads: cells that nothing has written (20_memory.md). -/

namespace Sys2Proof.Machine

/-- An unlisted cell reads 0. -/
theorem Memory.read_of_not_mem {m : Memory} {a : Nat} (h : ∀ v, (a, v) ∉ m) : m.read a = 0#64 := by
  induction m with
  | nil => exact Memory.read_nil a
  | cons cell m ih =>
    obtain ⟨b, u⟩ := cell
    have hne : b ≠ a := by
      rintro rfl
      exact h u List.mem_cons_self
    rw [Memory.read_cons, if_neg hne]
    exact ih fun v hv => h v (List.mem_cons_of_mem _ hv)

@[simp] theorem State.load_mem (program : List W64) (x y : Bool) :
    (State.load program x y).mem = Memory.ofWords 0 program := rfl

/-- A loaded memory reads cell by cell as the Program, and as 0 at and beyond its end (R270). -/
theorem State.load_mem_read (program : List W64) (x y : Bool) (a : Nat) :
    (State.load program x y).mem.read a = program.getD a 0#64 := by
  simpa using Memory.read_ofWords program 0 a

/-- Settles O50: a legal read is the answering branch of `memRead`, an unlisted cell is passed over by the
whole lookup, and a loaded memory reads as the Program padded with zeros. -/
theorem unwrittenCellsReadZero : Obligations.UnwrittenCellsReadZero := by
  refine ⟨fun s a ha => s.memRead_legal ha, fun m a h => Memory.read_of_not_mem h, ?_⟩
  intro program x y a ha
  rw [State.load_mem_read]
  exact List.getD_eq_default program 0#64 ha

end Sys2Proof.Machine
end

section
/-! The decoder's answers: absent mode digits, the opcode map, rejected words (30_encoding.md R82, R83, R94). -/

namespace Sys2Proof

/-- A word without a digit at parameter `k`'s place has mode digit 0 there. -/
theorem modeDigit_eq_zero {w : W64} {k : Nat} (h : w.toNat < 10 ^ (k + 1)) : modeDigit w k = 0 := by
  rw [modeDigit, digit, Nat.div_eq_of_lt h]

/-- Settles O5: the quotient that isolates an absent digit is 0, and digit 0 is position mode. -/
theorem absentModeDigitsArePosition : Obligations.AbsentModeDigitsArePosition := by
  refine ⟨fun w k h => ?_, by decide, by decide⟩
  rw [modeDigit_eq_zero h]
  rfl

@[simp] theorem Opcode.build_opcode (o : Opcode) (a b c : Param) : (o.build a b c).opcode = o := by
  cases o <;> rfl

/-- Every opcode of the table is 1 to 9 or 99. -/
theorem Opcode.code_mem_range (o : Opcode) : (1 ≤ o.code ∧ o.code ≤ 9) ∨ o.code = 99 := by
  cases o <;> decide

/-- The ninety numbers that are no opcode (R94). -/
theorem Opcode.ofCode_eq_none {c : Nat} (h : c = 0 ∨ (10 ≤ c ∧ c ≤ 98)) : Opcode.ofCode c = none := by
  refine List.find?_eq_none.2 fun o _ ho => ?_
  have hc : o.code = c := by simpa using ho
  have := o.code_mem_range
  omega

/-- A word that is not negative and has none of the ten opcodes is rejected (R94, R97). -/
theorem decode_of_illegal_opcode {x : Window} (h : 0 ≤ x.word.toInt)
    (hc : x.word.toNat % 100 = 0 ∨ (10 ≤ x.word.toNat % 100 ∧ x.word.toNat % 100 ≤ 98)) :
    decode x = .error (.unknownOpcode x.word) := by
  rw [decode, if_neg (by omega), opcodeField, Opcode.ofCode_eq_none hc]

namespace Machine

/-- A step that fetches a word the decoder rejects raises the reject's fault, `ip` past that word only
(R131, R132, R233). -/
theorem step_of_decode_error {s : State} {e : Reject} (hs : s.canFetch)
    (he : decode (s.advance.window s.wordAtIp) = .error e) :
    step s = .next (s.advance.raise (rejectCause e)) := by
  obtain ⟨hphase, hlow, hhigh⟩ := hs
  rw [step_run hphase]
  obtain ⟨h, _⟩ | ⟨h, _⟩ | ⟨_, _, ⟨e', he', hcycle⟩ | ⟨i, hi, _⟩⟩ := cycle_cases s
  · exact absurd h (by omega)
  · exact absurd h (by omega)
  · rw [he] at he'
    cases he'
    exact hcycle
  · rw [he] at hi
    cases hi

/-- Settles O4: the numbers of the map are the rows' own codes, by which the decoder finds the row; at any
other number the lookup finds nothing and the step takes the reject's fault. -/
theorem opcodeMapIsTheTable : Obligations.OpcodeMapIsTheTable := by
  refine ⟨fun x c o hx hc ho => ?_, fun s hs hw hc => ?_⟩
  · have hcode : c = o.code := by
      have table : ∀ q ∈ [(1, Opcode.add), (2, .mul), (3, .inp), (4, .out), (5, .tjmp), (6, .fjmp),
          (7, .lt), (8, .eq), (9, .rbs), (99, .halt)], q.1 = q.2.code := by decide
      exact table (c, o) ho
    exact ⟨_, decode_of_code hx (hc.trans hcode), Opcode.build_opcode ..⟩
  · exact step_of_decode_error hs (decode_of_illegal_opcode hw hc)

end Machine
end Sys2Proof
end

section
/-! Illegal mode digits (30_encoding.md R86): what an instruction processes before it meets one, and that
allowed digits never raise the fault. -/

namespace Sys2Proof.Machine

/-! ### The order in which the parameters are processed (R134) -/

/-- Every instruction with parameters starts by processing the first one. -/
theorem exec_takes_first_param {i : Instr} {p : Param} {ps : List Param} (h : i.params = p :: ps)
    (s : State) :
    (∃ k, exec i s = (takeValue 1 p s).andThen k) ∨ (∃ k, exec i s = (takeDest 1 p s).andThen k) := by
  cases i with
  | add a b d | mul a b d | lt a b d | eq a b d | tjmp a b | fjmp a b | out a | rbs a =>
    cases h
    exact .inl ⟨_, rfl⟩
  | inp d =>
    cases h
    exact .inr ⟨_, rfl⟩
  | halt => cases h

/-- An instruction with two parameters or more starts by processing two value parameters. -/
theorem exec_takes_first_two_params {i : Instr} {p q : Param} {ps : List Param}
    (h : i.params = p :: q :: ps) (s : State) :
    ∃ k : W64 → W64 → State → Out,
      exec i s = (takeValue 1 p s).andThen fun v t => (takeValue 2 q t).andThen (k v) := by
  cases i with
  | add a b d | mul a b d | lt a b d | eq a b d | tjmp a b | fjmp a b =>
    cases h
    exact ⟨_, rfl⟩
  | inp a | out a | rbs a | halt => cases h

/-- An instruction with three parameters has format VVD (R91). -/
theorem exec_of_three_params {i : Instr} {p q r : Param} (h : i.params = [p, q, r]) (s : State) :
    ∃ f, exec i s = binaryToMemory f p q r s := by
  cases i with
  | add a b d | mul a b d | lt a b d | eq a b d =>
    cases h
    exact ⟨_, rfl⟩
  | inp a | out a | rbs a | tjmp a b | fjmp a b | halt => cases h

/-- A destination parameter with a mode digit 3 .. 9 (R86). -/
theorem takeDest_reserved (k : Nat) {p : Param} {s : State} {d : Fin 7} (hp : ¬ s.pastEnd)
    (hm : p.mode = .reserved d) :
    takeDest k p s = .raised (.invalidParamMode k (d.val + 3)) s.advance := by
  have hd : destOf p = none := by simp [destOf, hm]
  rw [takeDest_bad k hp hd, hm]
  rfl

theorem exec_reserved_first {i : Instr} {s : State} {p : Param} {ps : List Param} {d : Fin 7}
    (h : i.params = p :: ps) (hm : p.mode = .reserved d) (hr : s.roomFor 1) :
    exec i s = .next (s.advance.raise (.invalidParamMode 1 (d.val + 3))) := by
  obtain ⟨room1, _⟩ := State.roomFor_succ hr
  obtain ⟨k, e⟩ | ⟨k, e⟩ := exec_takes_first_param h s
  · rw [e, takeValue_reserved 1 room1 hm, Result.raised_andThen]
  · rw [e, takeDest_reserved 1 room1 hm, Result.raised_andThen]

theorem exec_reserved_second {i : Instr} {s : State} {p q : Param} {ps : List Param} {d : Fin 7} {v : W64}
    (h : i.params = p :: q :: ps) (hv : valueOf s p = some v) (hm : q.mode = .reserved d)
    (hr : s.roomFor 2) :
    exec i s = .next (s.advance.advance.raise (.invalidParamMode 2 (d.val + 3))) := by
  obtain ⟨room1, hr⟩ := State.roomFor_succ hr
  obtain ⟨room2, _⟩ := State.roomFor_succ hr
  obtain ⟨k, e⟩ := exec_takes_first_two_params h s
  rw [e, takeValue_ok 1 room1 hv, Result.ok_andThen, takeValue_reserved 2 room2 hm,
    Result.raised_andThen]

theorem exec_reserved_third {i : Instr} {s : State} {p q r : Param} {d : Fin 7} {v w : W64}
    (h : i.params = [p, q, r]) (hv : valueOf s p = some v) (hw : valueOf s q = some w)
    (hm : r.mode = .reserved d) (hr : s.roomFor 3) :
    exec i s = .next (s.advance.advance.advance.raise (.invalidParamMode 3 (d.val + 3))) := by
  obtain ⟨room1, hr⟩ := State.roomFor_succ hr
  obtain ⟨room2, hr⟩ := State.roomFor_succ hr
  obtain ⟨room3, _⟩ := State.roomFor_succ hr
  obtain ⟨f, e⟩ := exec_of_three_params h s
  rw [e, binaryToMemory, takeValue_ok 1 room1 hv, Result.ok_andThen, takeValue_ok 2 room2 hw,
    Result.ok_andThen, takeDest_reserved 3 room3 hm, Result.raised_andThen]

/-! ### Allowed mode digits -/

theorem mode_ne_reserved_of_wellFormed {p : Param} (h : p.wellFormed .value = true) (d : Fin 7) :
    p.mode ≠ .reserved d := by
  obtain ⟨m, w⟩ := p
  rintro rfl
  cases h

theorem destOf_ne_none_of_wellFormed {p : Param} (h : p.wellFormed .destination = true) :
    destOf p ≠ none := by
  obtain ⟨m, w⟩ := p
  cases m with
  | position | relative => simp [destOf]
  | immediate | reserved d => cases h

/-- The core is not in the state InvalidParamModeError leaves. -/
def State.NoModeFault (s : State) : Prop := ∀ k m, s.phase ≠ .faulted (.invalidParamMode k m)

/-- The state a line of `Step` leaves, its fault taken if it raised one, shows no InvalidParamModeError. -/
def Result.NoModeFault {α : Type} : Result α → Prop
  | .ok _ s => s.NoModeFault
  | .raised c s => (s.raise c).NoModeFault

/-- If there is a next state, it shows no InvalidParamModeError. -/
def NextHasNoModeFault (o : Out) : Prop := ∀ t, o = .next t → t.NoModeFault

theorem nextHasNoModeFault_next {t : State} (h : t.NoModeFault) : NextHasNoModeFault (.next t) := by
  rintro u ⟨⟩
  exact h

theorem State.noModeFault_of_not_isFaulted {s : State} (h : s.isFaulted = false) : s.NoModeFault := by
  intro k m hp
  simp [State.isFaulted, hp] at h

/-- Lines without the fault in sequence: the fault is in no line, so not in the whole. -/
theorem Result.NoModeFault.andThen {α : Type} {r : Result α} {f : α → State → Out} (hr : r.NoModeFault)
    (hf : ∀ v t, t.NoModeFault → NextHasNoModeFault (f v t)) : NextHasNoModeFault (r.andThen f) := by
  cases r with
  | ok v t => exact hf v t hr
  | raised c t => exact nextHasNoModeFault_next hr

theorem takeValue_noModeFault (k : Nat) {p : Param} {s : State} (hp : p.wellFormed .value = true)
    (hs : s.NoModeFault) : (takeValue k p s).NoModeFault := by
  obtain ⟨_, e⟩ | ⟨_, d, hm, _⟩ | ⟨_, a, _, _, e⟩ | ⟨_, v, _, e⟩ := takeValue_cases k p s
  · rw [e]; exact fun _ _ => nofun
  · exact absurd hm (mode_ne_reserved_of_wellFormed hp d)
  · rw [e]; exact fun _ _ => nofun
  · rw [e]; exact hs

theorem takeDest_noModeFault (k : Nat) {p : Param} {s : State} (hp : p.wellFormed .destination = true)
    (hs : s.NoModeFault) : (takeDest k p s).NoModeFault := by
  obtain ⟨_, e⟩ | ⟨_, hd, _⟩ | ⟨_, dst, _, e⟩ := takeDest_cases k p s
  · rw [e]; exact fun _ _ => nofun
  · exact absurd hd (destOf_ne_none_of_wellFormed hp)
  · rw [e]; exact hs

theorem store_noModeFault (d : Dest) (v : W64) {s : State} (hs : s.NoModeFault) :
    (store d v s).NoModeFault := by
  obtain ⟨_, e⟩ | ⟨_, e⟩ := store_cases d v s
  · rw [e]; exact hs
  · rw [e]; exact fun _ _ => nofun

/-- Format VVD with allowed mode digits. -/
theorem binaryToMemory_noModeFault (f : W64 → W64 → W64) {a b d : Param} {s : State}
    (hwf : (a.wellFormed .value && b.wellFormed .value && d.wellFormed .destination) = true)
    (hs : s.NoModeFault) : NextHasNoModeFault (binaryToMemory f a b d s) := by
  simp only [Bool.and_eq_true] at hwf
  obtain ⟨⟨ha, hb⟩, hd⟩ := hwf
  exact (takeValue_noModeFault 1 ha hs).andThen fun v1 s1 h1 =>
    (takeValue_noModeFault 2 hb h1).andThen fun v2 s2 h2 =>
      (takeDest_noModeFault 3 hd h2).andThen fun dst s3 h3 =>
        (store_noModeFault dst (f v1 v2) h3).andThen fun _ s4 h4 => nextHasNoModeFault_next h4

/-- Format VV with allowed mode digits, for an effect that raises no such fault. -/
theorem withTwoValues_noModeFault {a b : Param} {s : State} {k : W64 → W64 → State → State}
    (hwf : (a.wellFormed .value && b.wellFormed .value) = true) (hs : s.NoModeFault)
    (hk : ∀ v w t, t.NoModeFault → (k v w t).NoModeFault) :
    NextHasNoModeFault (withTwoValues a b s k) := by
  obtain ⟨ha, hb⟩ := Bool.and_eq_true_iff.1 hwf
  exact (takeValue_noModeFault 1 ha hs).andThen fun v s1 h1 =>
    (takeValue_noModeFault 2 hb h1).andThen fun w s2 h2 => nextHasNoModeFault_next (hk v w s2 h2)

/-- Format V with allowed mode digits, for an effect that raises no such fault. -/
theorem withOneValue_noModeFault {a : Param} {s : State} {k : W64 → State → State}
    (ha : a.wellFormed .value = true) (hs : s.NoModeFault)
    (hk : ∀ v t, t.NoModeFault → (k v t).NoModeFault) : NextHasNoModeFault (withOneValue a s k) :=
  (takeValue_noModeFault 1 ha hs).andThen fun v s1 h1 => nextHasNoModeFault_next (hk v s1 h1)

/-- An instruction whose own mode digits are allowed never raises InvalidParamModeError (R86, R87). -/
theorem exec_noModeFault {i : Instr} {s : State} (hwf : i.wellFormed = true) (hs : s.NoModeFault) :
    NextHasNoModeFault (exec i s) := by
  cases i with
  | add a b d | mul a b d | lt a b d | eq a b d => exact binaryToMemory_noModeFault _ hwf hs
  | tjmp a b | fjmp a b =>
    refine withTwoValues_noModeFault hwf hs fun v w t ht => ?_
    cases isZero v <;> exact ht
  | rbs a => exact withOneValue_noModeFault hwf hs fun _ _ ht => ht
  | out a => exact withOneValue_noModeFault hwf hs fun _ _ _ _ _ => nofun
  | inp d =>
    exact (takeDest_noModeFault 1 hwf hs).andThen fun _ _ _ => nextHasNoModeFault_next fun _ _ => nofun
  | halt => exact nextHasNoModeFault_next fun _ _ => nofun

/-- Settles O14: the parameters before the illegal digit are processed, then its own check raises; with
allowed digits no line of the instruction raises that fault. -/
theorem reservedModeDigitRaises : Obligations.ReservedModeDigitRaises := by
  refine ⟨fun i s p ps d h hm hr => exec_reserved_first h hm hr, ?_, ?_, ?_⟩
  · intro i s p q ps d v h hv hm hr
    rw [exec_reserved_second h hv hm hr, State.advance_advance]
    rfl
  · intro i s p q r d v w h hv hw hm hr
    rw [exec_reserved_third h hv hw hm hr, State.advance_three]
    rfl
  · intro i s t k m hwf hs ht
    exact exec_noModeFault hwf (State.noModeFault_of_not_isFaulted hs) t ht k m

end Sys2Proof.Machine
end

section
/-! Port traffic (42_io.md R172): which instruction a wait phase belongs to, and which half of which
instruction takes input or sends output. -/

namespace Sys2Proof.Machine

/-- The row of the instruction whose second half is pending in a phase, if one is (R140, R141). -/
def Phase.pendingOpcode : Phase → Option Opcode
  | .inWait _ => some .inp
  | .outWait _ => some .out
  | .run | .halted | .faulted _ => none

/-- An instruction's own cycle takes no input and sends no output, whatever it is (R140, R172). -/
theorem exec_keeps_ports {i : Instr} {s t : State} (h : exec i s = .next t) :
    t.inputs = s.inputs ∧ t.inputsTaken = s.inputsTaken ∧ t.outputs = s.outputs := by
  obtain ⟨_, _, _, e⟩ | ⟨_, _, _, _, e⟩ | ⟨_, _, e⟩ | ⟨_, _, e⟩ | ⟨_, _, e⟩ | ⟨_, _, e⟩ | ⟨_, e⟩ :=
    exec_cases i s
  all_goals
    rw [e] at h
    cases h
    exact ⟨rfl, rfl, rfl⟩

/-- A cycle begun in phase RUN leaves a second half pending only if it is its own instruction's. -/
theorem exec_pendingOpcode {i : Instr} {s t : State} {o : Opcode} (hs : s.phase = .run)
    (h : exec i s = .next t) (ho : t.phase.pendingOpcode = some o) : i.opcode = o := by
  obtain ⟨_, _, _, e⟩ | ⟨_, _, _, _, e⟩ | ⟨_, _, e⟩ | ⟨_, _, e⟩ | ⟨_, hi, e⟩ | ⟨_, hi, e⟩ | ⟨_, e⟩ :=
    exec_cases i s <;> rw [e] at h <;> cases h
  · cases ho
  · simp [Phase.pendingOpcode, hs] at ho
  · simp [Phase.pendingOpcode, hs] at ho
  · simp [Phase.pendingOpcode, hs] at ho
  · exact hi.trans (Option.some.inj ho)
  · exact hi.trans (Option.some.inj ho)
  · cases ho

/-- The second half of `in` sends no output and leaves nothing pending. -/
theorem finishInp_outputs_pendingOpcode {d : Dest} {s t : State} (h : finishInp d s = .next t) :
    t.outputs = s.outputs ∧ t.phase.pendingOpcode = none := by
  obtain ⟨_, e⟩ | ⟨_, _, e⟩ | ⟨_, _, e⟩ := finishInp_cases d s
  all_goals
    rw [e] at h
    cases h
    exact ⟨rfl, rfl⟩

/-- The second half of `out` takes no input and leaves nothing pending. -/
theorem finishOut_inputs_pendingOpcode {v : W64} {s t : State} (h : finishOut v s = .next t) :
    t.inputs = s.inputs ∧ t.inputsTaken = s.inputsTaken ∧ t.phase.pendingOpcode = none := by
  cases h
  exact ⟨rfl, rfl, rfl⟩

/-- A step takes no input, or it is the second half of `in` (R172). -/
theorem step_inputs {s t : State} (h : step s = .next t) :
    (t.inputs = s.inputs ∧ t.inputsTaken = s.inputsTaken) ∨ ∃ d, s.phase = .inWait d := by
  obtain ⟨_, _, _, rfl⟩ | ⟨_, _, _, he⟩ | ⟨d, hd, _⟩ | ⟨_, _, he⟩ := step_next_cases h
  · exact .inl ⟨rfl, rfl⟩
  · obtain ⟨hin, htaken, _⟩ := exec_keeps_ports he
    exact .inl ⟨hin, htaken⟩
  · exact .inr ⟨d, hd⟩
  · obtain ⟨hin, htaken, _⟩ := finishOut_inputs_pendingOpcode he
    exact .inl ⟨hin, htaken⟩

/-- A step sends no output, or it is the second half of `out` (R172). -/
theorem step_outputs {s t : State} (h : step s = .next t) :
    t.outputs = s.outputs ∨ ∃ v, s.phase = .outWait v := by
  obtain ⟨_, _, _, rfl⟩ | ⟨_, _, _, he⟩ | ⟨_, _, he⟩ | ⟨v, hv, _⟩ := step_next_cases h
  · exact .inl rfl
  · obtain ⟨_, _, hout⟩ := exec_keeps_ports he
    exact .inl hout
  · exact .inl (finishInp_outputs_pendingOpcode he).1
  · exact .inr ⟨v, hv⟩

/-- A step that leaves a second half pending fetched a word with that instruction's opcode (R97, R140). -/
theorem step_pendingOpcode {s t : State} {o : Opcode} (h : step s = .next t)
    (ho : t.phase.pendingOpcode = some o) : s.canFetch ∧ s.wordAtIp.toNat % 100 = o.code := by
  obtain ⟨_, _, _, rfl⟩ | ⟨hf, i, hd, he⟩ | ⟨_, _, he⟩ | ⟨_, _, he⟩ := step_next_cases h
  · cases ho
  · have hi : i.opcode = o := exec_pendingOpcode (s.advance_phase.trans hf.1) he ho
    obtain ⟨_, hcode⟩ := decode_ok hd
    exact ⟨hf, hi ▸ hcode⟩
  · obtain ⟨_, hnone⟩ := finishInp_outputs_pendingOpcode he
    cases hnone.symm.trans ho
  · obtain ⟨_, _, hnone⟩ := finishOut_inputs_pendingOpcode he
    cases hnone.symm.trans ho

/-- Only `in` has the input class and only `out` the output class (R92, R172). -/
theorem opClass_port_iff (o : Opcode) :
    (o.opClass = .inputClass ↔ o = .inp) ∧ (o.opClass = .outputClass ↔ o = .out) := by
  cases o <;> decide

/-- Settles O45: the first halves keep the ports, each second half moves its own port only, and a pending
second half goes back to the opcode of the fetched word. -/
theorem onlyInAndOutTouchThePorts : Obligations.OnlyInAndOutTouchThePorts := by
  refine ⟨opClass_port_iff, fun _ _ _ h => exec_keeps_ports h, ?_, ?_, ?_, ?_⟩
  · rintro s t h (hin | htaken)
    · exact (step_inputs h).resolve_left fun hkept => hin hkept.1
    · exact (step_inputs h).resolve_left fun hkept => htaken hkept.2
  · exact fun s t h hout => (step_outputs h).resolve_left hout
  · exact fun s t d h hp => step_pendingOpcode (o := .inp) h (by rw [hp, Phase.pendingOpcode])
  · exact fun s t v h hp => step_pendingOpcode (o := .out) h (by rw [hp, Phase.pendingOpcode])

end Sys2Proof.Machine
end

section
/-! Jumps (43_jumps.md): the effect of `tjmp` and `fjmp` once both values resolve, taken or not. -/

namespace Sys2Proof.Machine

@[simp] theorem isZero_iff (v : W64) : isZero v = true ↔ v = 0#64 := decide_eq_true_iff

/-- `tjmp` with two resolvable operands (R200): the target if the condition is not 0, else the next word. -/
theorem exec_tjmp_ok {a addr : Param} {s : State} {v t : W64} (hr : s.roomFor 2)
    (hv : valueOf s a = some v) (ht : valueOf s addr = some t) :
    exec (.tjmp a addr) s = .next { s with ip := if v = 0#64 then s.ip + 2 else t } := by
  have h : exec (.tjmp a addr) s =
      .next (if isZero v then { s with ip := s.ip + 2 } else { s with ip := t }) :=
    withTwoValues_ok _ hr hv ht
  rw [h]
  by_cases hz : v = 0#64 <;> simp [hz]

/-- `fjmp` with two resolvable operands (R201): the target if the condition is 0, else the next word. -/
theorem exec_fjmp_ok {a addr : Param} {s : State} {v t : W64} (hr : s.roomFor 2)
    (hv : valueOf s a = some v) (ht : valueOf s addr = some t) :
    exec (.fjmp a addr) s = .next { s with ip := if v = 0#64 then t else s.ip + 2 } := by
  have h : exec (.fjmp a addr) s =
      .next (if isZero v then { s with ip := t } else { s with ip := s.ip + 2 }) :=
    withTwoValues_ok _ hr hv ht
  rw [h]
  by_cases hz : v = 0#64 <;> simp [hz]

/-- Settles O26: the branch of each jump's effect that its condition selects sets `ip` to the second value
as it was resolved. -/
theorem takenJumpLoadsTheWholeTarget : Obligations.TakenJumpLoadsTheWholeTarget := by
  refine fun a addr s v t hr hv ht => ⟨fun hne => ?_, fun hz => ?_⟩
  · rw [exec_tjmp_ok hr hv ht, if_neg hne]
  · rw [exec_fjmp_ok hr hv ht, if_pos hz]

end Sys2Proof.Machine
end

section
/-! Running past the program (60_exceptions.md R232, R235): a cycle that would start at or beyond `N`, and
an instruction whose parameter words run into `N`. -/

namespace Sys2Proof.Machine

/-- In phase RUN the fetch at or beyond `N` raises, and nothing follows it (R131, R232). -/
theorem step_pastEnd {s : State} (hphase : s.phase = .run) (hp : s.pastEnd) :
    step s = .next (s.raise (.haltedAccess s.ip)) := by
  rw [step_run hphase]
  obtain ⟨_, hcycle⟩ | ⟨hneg, _⟩ | ⟨_, hlt, _⟩ := cycle_cases s
  · exact hcycle
  · exact absurd hp (by omega)
  · exact absurd hp (by omega)

/-- Settles O7: the fetch's first check is on `ip` and `N` only, and it raises before the word is read. -/
theorem runningOffTheProgramRaises : Obligations.RunningOffTheProgramRaises :=
  fun _ hphase hp => step_pastEnd hphase hp

/-- Inside a program that can be loaded, moving `ip` past a word does not wrap. -/
theorem State.advance_ip_toInt {s : State} (hp : ¬ s.pastEnd) (hn : s.n ≤ Config.programMax) :
    s.advance.ip.toInt = s.ip.toInt + 1 := by
  have hmax : s.n ≤ 9223372036854775807 := hn
  exact toInt_add_one (by omega)

theorem exec_missing_first {i : Instr} {s : State} {p : Param} {ps : List Param}
    (h : i.params = p :: ps) (end0 : s.pastEnd) :
    exec i s = .next (s.raise (.incompleteInstruction s.ip)) := by
  obtain ⟨k, e⟩ | ⟨k, e⟩ := exec_takes_first_param h s
  · rw [e, takeValue_pastEnd 1 p end0, Result.raised_andThen]
  · rw [e, takeDest_pastEnd 1 p end0, Result.raised_andThen]

theorem exec_missing_second {i : Instr} {s : State} {p q : Param} {ps : List Param} {v : W64}
    (h : i.params = p :: q :: ps) (hv : valueOf s p = some v) (room1 : ¬ s.pastEnd)
    (end1 : s.advance.pastEnd) :
    exec i s = .next (s.advance.raise (.incompleteInstruction s.advance.ip)) := by
  obtain ⟨k, e⟩ := exec_takes_first_two_params h s
  rw [e, takeValue_ok 1 room1 hv, Result.ok_andThen, takeValue_pastEnd 2 q end1, Result.raised_andThen]

theorem exec_missing_third {i : Instr} {s : State} {p q r : Param} {v w : W64}
    (h : i.params = [p, q, r]) (hv : valueOf s p = some v) (hw : valueOf s q = some w)
    (room1 : ¬ s.pastEnd) (room2 : ¬ s.advance.pastEnd) (end2 : s.advance.advance.pastEnd) :
    exec i s =
      .next (s.advance.advance.raise (.incompleteInstruction s.advance.advance.ip)) := by
  obtain ⟨f, e⟩ := exec_of_three_params h s
  rw [e, binaryToMemory, takeValue_ok 1 room1 hv, Result.ok_andThen, takeValue_ok 2 room2 hw,
    Result.ok_andThen, takeDest_pastEnd 3 r end2, Result.raised_andThen]

/-- Settles O16: each parameter processed moves `ip` on by one without wrapping, so the word fetch that
finds `ip = N` is the missing parameter's own, and it raises with memory untouched. -/
theorem missingParameterWordRaises : Obligations.MissingParameterWordRaises := by
  refine ⟨fun i s hne hip => ?_, fun i s p q ps v h hv hip hn => ?_,
    fun i s p q r v w h hv hw hip hn => ?_⟩
  · obtain ⟨p, ps, h⟩ := List.exists_cons_of_ne_nil hne
    exact exec_missing_first h hip.ge
  · have room1 : ¬ s.pastEnd := by omega
    have ip1 := State.advance_ip_toInt room1 hn
    have end1 : s.advance.pastEnd := by rw [State.pastEnd, State.advance_n]; omega
    exact exec_missing_second h hv room1 end1
  · have room1 : ¬ s.pastEnd := by omega
    have ip1 := State.advance_ip_toInt room1 hn
    have room2 : ¬ s.advance.pastEnd := by rw [State.pastEnd, State.advance_n]; omega
    have ip2 := State.advance_ip_toInt room2 hn
    have end2 : s.advance.advance.pastEnd := by
      rw [State.pastEnd, State.advance_n, State.advance_n]; omega
    rw [exec_missing_third h hv hw room1 room2 end2, State.advance_advance]
    rfl

end Sys2Proof.Machine
end

section
/-! Encoding and decoding (30_encoding.md R81, R88, R95, R97): what the decoder reads of a window, and that
the cells of an instruction decode to it. -/

namespace Sys2Proof

/-! ### What an instruction is made of -/

/-- A row's instruction is fixed by the parameters the row has. -/
theorem Opcode.build_congr (o : Opcode) {a b c a' b' c' : Param} (h1 : 1 ≤ o.arity → a = a')
    (h2 : 2 ≤ o.arity → b = b') (h3 : 3 ≤ o.arity → c = c') : o.build a b c = o.build a' b' c' := by
  cases o with
  | add | mul | lt | eq =>
    cases h1 (by decide)
    cases h2 (by decide)
    cases h3 (by decide)
    rfl
  | tjmp | fjmp =>
    cases h1 (by decide)
    cases h2 (by decide)
    rfl
  | inp | out | rbs =>
    cases h1 (by decide)
    rfl
  | halt => rfl

/-- An instruction is its row with its own parameters. -/
theorem Opcode.build_params (i : Instr) (x : Nat → Param)
    (h : ∀ k p, i.params[k]? = some p → x k = p) : i.opcode.build (x 0) (x 1) (x 2) = i := by
  cases i with
  | add a b d | mul a b d | lt a b d | eq a b d =>
    rw [h 0 a rfl, h 1 b rfl, h 2 d rfl]
    rfl
  | tjmp a b | fjmp a b =>
    rw [h 0 a rfl, h 1 b rfl]
    rfl
  | inp a | out a | rbs a =>
    rw [h 0 a rfl]
    rfl
  | halt => rfl

/-! ### The canonical instruction word -/

theorem pow_dvd_modeDigits (j : Nat) (ps : List Param) : 10 ^ j ∣ modeDigits j ps := by
  induction ps generalizing j with
  | nil => exact dvd_zero _
  | cons p ps ih => exact (Dvd.intro_left _ rfl).add ((pow_dvd_pow 10 (Nat.le_succ j)).trans (ih (j + 1)))

/-- A parameter's digit in a number that holds a list's mode digits above its low `j` digits (R81). -/
theorem digit_add_modeDigits {ps : List Param} {c j k : Nat} {p : Param} (hc : c < 10 ^ j)
    (h : ps[k]? = some p) : digit (c + modeDigits j ps) (j + k) = p.mode.digit := by
  induction ps generalizing c j k with
  | nil => cases h
  | cons q ps ih =>
    have hq := q.mode.digit_le
    have hc' : c + q.mode.digit * 10 ^ j < 10 ^ (j + 1) := by rw [pow_succ]; nlinarith
    rw [modeDigits, ← Nat.add_assoc]
    cases k with
    | zero =>
      cases h
      obtain ⟨rest, hrest⟩ := pow_dvd_modeDigits (j + 1) ps
      have hpos : 0 < 10 ^ j := by positivity
      have hsum : c + p.mode.digit * 10 ^ j + modeDigits (j + 1) ps =
          c + (p.mode.digit + 10 * rest) * 10 ^ j := by rw [hrest]; ring
      rw [hsum, digit, Nat.add_zero, Nat.add_mul_div_right _ _ hpos, Nat.div_eq_of_lt hc]
      omega
    | succ k =>
      rw [show j + (k + 1) = j + 1 + k by omega]
      exact ih hc' h

/-- As many digits as the list has parameters stand above the low `j`. -/
theorem add_modeDigits_lt {ps : List Param} {c j : Nat} (hc : c < 10 ^ j) :
    c + modeDigits j ps < 10 ^ (j + ps.length) := by
  induction ps generalizing c j with
  | nil => exact hc
  | cons q ps ih =>
    have hq := q.mode.digit_le
    have hc' : c + q.mode.digit * 10 ^ j < 10 ^ (j + 1) := by rw [pow_succ]; nlinarith
    rw [modeDigits, ← Nat.add_assoc, List.length_cons, show j + (ps.length + 1) = j + 1 + ps.length by omega]
    exact ih hc'

theorem Opcode.code_lt (o : Opcode) : o.code < 10 ^ 2 := by cases o <;> decide

theorem Opcode.arity_le (o : Opcode) : o.arity ≤ 3 := by cases o <;> decide

theorem Instr.params_length (i : Instr) : i.params.length = i.opcode.arity := by cases i <;> rfl

/-- At most five digits (R95). -/
theorem Instr.headWord_lt (i : Instr) : i.headWord < 10 ^ 5 := by
  have hlen : 2 + i.params.length ≤ 5 := by
    have := i.opcode.arity_le
    rw [i.params_length]
    omega
  exact (add_modeDigits_lt i.opcode.code_lt).trans_le (Nat.pow_le_pow_right (by decide) hlen)

@[simp] theorem Instr.toNat_headWord (i : Instr) : (BitVec.ofNat 64 i.headWord).toNat = i.headWord := by
  have := i.headWord_lt
  rw [BitVec.toNat_ofNat]
  omega

theorem Instr.toInt_headWord_nonneg (i : Instr) : 0 ≤ (BitVec.ofNat 64 i.headWord).toInt := by
  have := i.headWord_lt
  rw [BitVec.toInt_eq_toNat_of_lt] <;> rw [i.toNat_headWord] <;> omega

/-- Parameter `k + 1`'s mode digit has weight 10^(k+2) in the canonical word (R81, R95). -/
theorem Instr.digit_headWord {i : Instr} {k : Nat} {p : Param} (h : i.params[k]? = some p) :
    digit i.headWord (k + 2) = p.mode.digit := by
  rw [Nat.add_comm]
  exact digit_add_modeDigits i.opcode.code_lt h

@[simp] theorem encode_length (i : Instr) : (encode i).length = i.length := by
  rw [encode, List.length_cons, List.length_map, i.params_length, Instr.length, Nat.add_comm]

theorem encode_succ_getD {i : Instr} {k : Nat} {p : Param} (h : i.params[k]? = some p) :
    (encode i).getD (k + 1) 0#64 = p.word := by
  simp [encode, List.getD_eq_getElem?_getD, h]

/-! ### Windows -/

/-- The cells of a window, in order. -/
def Window.cells (x : Window) : List W64 := [x.word, x.p1, x.p2, x.p3]

/-- The parameter the decoder reads at place `k`, from 0: the digit of weight 10^(k+2) and cell `k + 1`. -/
def Window.param (x : Window) (k : Nat) : Param :=
  ⟨Mode.ofDigit (modeDigit x.word (k + 1)), x.cells.getD (k + 1) 0#64⟩

theorem Window.cells_ofWords (ws : List W64) {k : Nat} (h : k < 4) :
    (Window.ofWords ws).cells.getD k 0#64 = ws.getD k 0#64 := by
  match k with
  | 0 | 1 | 2 | 3 => rfl

/-- The cells of an instruction decode to it: its canonical word has its opcode and its mode digits
(R95, R97). -/
theorem decode_of_cells {x : Window} {i : Instr}
    (h : ∀ k, k < i.length → x.cells.getD k 0#64 = (encode i).getD k 0#64) : decode x = .ok i := by
  have hword : x.word = BitVec.ofNat 64 i.headWord := h 0 (by rw [Instr.length]; omega)
  have hcode : x.word.toNat % 100 = i.opcode.code := by
    rw [hword, i.toNat_headWord, Laws.headWord_mod]
  have hparam : ∀ k p, i.params[k]? = some p → x.param k = p := by
    intro k p hp
    have hk : k < i.opcode.arity := i.params_length ▸ (List.getElem?_eq_some_iff.1 hp).1
    rw [Window.param, h (k + 1) (by rw [Instr.length]; omega), encode_succ_getD hp, modeDigit, hword,
      i.toNat_headWord, Instr.digit_headWord hp, Mode.ofDigit_digit]
  rw [decode_of_code (hword ▸ i.toInt_headWord_nonneg) hcode]
  exact congrArg Except.ok (Opcode.build_params i x.param hparam)

/-- Settles O2: the first `length` cells of the window are the encoded cells, whatever follows them. -/
theorem decodeOfEncodeIsInstruction : Obligations.DecodeOfEncodeIsInstruction := by
  intro i rest
  refine decode_of_cells fun k hk => ?_
  have harity := i.opcode.arity_le
  have h4 : k < 4 := by rw [Instr.length] at hk; omega
  rw [Window.cells_ofWords _ h4, List.getD_append _ _ _ _ (encode_length i ▸ hk)]

/-! ### Digits that are not looked at (R88, decision D2) -/

/-- A digit below weight 10^m depends on the number modulo 10^m only. -/
theorem digit_eq_of_mod_eq {v w m j : Nat} (h : v % 10 ^ m = w % 10 ^ m) (hj : j < m) :
    digit v j = digit w j := by
  have low : ∀ u : Nat, digit u j = u % 10 ^ m % 10 ^ (j + 1) / 10 ^ j := fun u => by
    rw [Nat.mod_mod_of_dvd u (pow_dvd_pow 10 hj), pow_succ, Nat.mod_mul_right_div_self, digit]
  rw [low v, low w, h]

/-- Settles O3: the opcode and every mode digit of the row's own parameters lie below weight
10^(arity+2), and the row takes no other digit and no other cell. -/
theorem higherDigitsAreIgnored : Obligations.HigherDigitsAreIgnored := by
  intro x y o hx hy hcode hmod h1 h2 h3
  have hcode' : y.word.toNat % 100 = o.code := by
    have h100 : 100 ∣ 10 ^ (o.arity + 2) := pow_dvd_pow 10 (Nat.le_add_left 2 o.arity)
    rw [← hcode, ← Nat.mod_mod_of_dvd y.word.toNat h100, ← hmod, Nat.mod_mod_of_dvd _ h100]
  have hdigit : ∀ k, k ≤ o.arity → modeDigit x.word k = modeDigit y.word k := fun k hk =>
    digit_eq_of_mod_eq hmod (by omega)
  rw [decode_of_code hx hcode, decode_of_code hy hcode']
  refine congrArg Except.ok (o.build_congr (fun h => ?_) (fun h => ?_) fun h => ?_)
  · rw [hdigit 1 h, h1 h]
  · rw [hdigit 2 h, h2 h]
  · rw [hdigit 3 h, h3 h]

/-- Settles O1: each row of the table is a closed window the decoder evaluates. -/
theorem wordsOfTheSourceDecode : Obligations.WordsOfTheSourceDecode := by
  refine ⟨?_, ?_, ?_, ?_, ?_, ?_, ?_, ?_, ?_, ?_, ?_, ?_, ?_, ?_, ?_⟩ <;> decide

end Sys2Proof
end

section
/-! What a step changes (10_state.md section 4), said once as a list of transitions with what brings each
about: the invariant of the machine and the writer rules are read off it. -/

namespace Sys2Proof.Machine

/-- Every way a step leads from a state to the next (R143): a fault of a cycle; a cycle that completes and
changes memory, `rb`, the phase or nothing but `ip`; the second halves of `in` and `out`. -/
inductive Transition (s : State) : State → Prop
  | fault (hp : s.phase = .run) (c : Cause) (x : W64) :
    Transition s { s with ip := x, phase := .faulted c }
  | plain (hf : s.canFetch) (x : W64) (m : Memory) (hm : s.mem.wf = true → m.wf = true) :
    Transition s { s with ip := x, mem := m }
  | rebase (hf : s.canFetch) (hw : 0 ≤ s.wordAtIp.toInt) (hc : s.wordAtIp.toNat % 100 = 9) (x r : W64) :
    Transition s { s with ip := x, rb := r }
  | latchDest (hf : s.canFetch) (x : W64) (d : Dest) :
    Transition s ({ s with ip := x, phase := .inWait d }.emit .aboutToInput)
  | latchValue (hf : s.canFetch) (x v : W64) :
    Transition s ({ s with ip := x, phase := .outWait v }.emit .aboutToOutput)
  | halt (hf : s.canFetch) (hw : 0 ≤ s.wordAtIp.toInt) (hc : s.wordAtIp.toNat % 100 = 99) (x : W64) :
    Transition s ({ s with ip := x }.setHalted.emit .halted)
  | noSource {d : Dest} (hp : s.phase = .inWait d) : Transition s (s.raise .inputNotConnected)
  | loseInput {d : Dest} (hp : s.phase = .inWait d) (c : Cause) : Transition s (s.inputTaken.raise c)
  | storeInput {d : Dest} (hp : s.phase = .inWait d) (m : Memory) (hm : s.mem.wf = true → m.wf = true) :
    Transition s ({ s.inputTaken with mem := m, phase := .run }.emit .afterInput)
  | sendOutput {v : W64} (hp : s.phase = .outWait v) :
    Transition s ({ s.outputWrite v with phase := .run }.emit .afterOutput)

/-- A write to a legal address keeps the canonical form, the address as an integer. -/
theorem Memory.wf_write_legal {m : Memory} {a : Int} (ha : LegalAddr a) (v : W64) (hm : m.wf = true) :
    (m.write a.toNat v).wf = true := by
  obtain ⟨_, hmax⟩ := ha
  exact Memory.wf_write hm (by omega) v

/-- A cycle that executes a decoded instruction is one of the transitions. -/
theorem transition_of_exec {s t : State} {i : Instr} (hf : s.canFetch)
    (hd : decode (s.advance.window s.wordAtIp) = .ok i) (h : exec i s.advance = .next t) :
    Transition s t := by
  obtain ⟨hw, hc⟩ := decode_ok hd
  obtain ⟨c, x, _, e⟩ | ⟨a, v, _, ha, e⟩ | ⟨x, _, e⟩ | ⟨r, hi, e⟩ | ⟨d, _, e⟩ | ⟨v, _, e⟩ | ⟨hi, e⟩ :=
    exec_cases i s.advance <;> rw [e] at h <;> cases h
  · exact .fault hf.1 c x
  · exact .plain hf _ _ (Memory.wf_write_legal ha v)
  · exact .plain hf x s.mem id
  · exact .rebase hf hw (hc.trans (congrArg Opcode.code hi)) _ r
  · exact .latchDest hf _ d
  · exact .latchValue hf _ v
  · exact .halt hf hw (hc.trans (congrArg Opcode.code hi)) _

/-- Every step is one of the transitions. -/
theorem step_transition {s t : State} (h : step s = .next t) : Transition s t := by
  obtain ⟨hp, c, x, rfl⟩ | ⟨hf, i, hd, he⟩ | ⟨d, hp, he⟩ | ⟨v, hp, he⟩ := step_next_cases h
  · exact .fault hp c x
  · exact transition_of_exec hf hd he
  · obtain ⟨_, e⟩ | ⟨_, _, e⟩ | ⟨_, ha, e⟩ := finishInp_cases d s <;> rw [e] at he <;> cases he
    · exact .noSource hp
    · exact .loseInput hp _
    · exact .storeInput hp _ (Memory.wf_write_legal ha _)
  · cases he
    exact .sendOutput hp

/-! ### The event sequence (R179) -/

/-- One event more at the end of a sequence. -/
theorem EventPos.run_concat (p : EventPos) (es : List Event) (e : Event) :
    p.run (es ++ [e]) = (p.run es).bind fun q => q.after e.reason := by
  induction es generalizing p with
  | nil =>
    simp only [List.nil_append, EventPos.run, Option.bind_some]
    cases p.after e.reason <;> rfl
  | cons f es ih =>
    simp only [List.cons_append, EventPos.run]
    cases p.after f.reason with
    | none => rfl
    | some q => exact ih q

theorem State.eventsOk_iff (s : State) :
    s.eventsOk = true ↔ ∃ p, EventPos.run .idle s.events = some p ∧ s.phase.fits p = true := by
  unfold State.eventsOk
  cases EventPos.run .idle s.events <;> simp

/-- A change of phase that stays at the same place of the event sequence. -/
theorem State.eventsOk_of_same {s t : State} (hs : s.eventsOk = true) (hev : t.events = s.events)
    (h : ∀ p, s.phase.fits p = true → t.phase.fits p = true) : t.eventsOk = true := by
  obtain ⟨p, hrun, hp⟩ := s.eventsOk_iff.1 hs
  exact t.eventsOk_iff.2 ⟨p, hev ▸ hrun, h p hp⟩

/-- A change of phase together with the event that goes with it. -/
theorem State.eventsOk_of_emit {s t : State} {e : Event} (hs : s.eventsOk = true)
    (hev : t.events = s.events ++ [e])
    (h : ∀ p, s.phase.fits p = true → ∃ q, p.after e.reason = some q ∧ t.phase.fits q = true) :
    t.eventsOk = true := by
  obtain ⟨p, hrun, hp⟩ := s.eventsOk_iff.1 hs
  obtain ⟨q, hafter, hq⟩ := h p hp
  exact t.eventsOk_iff.2 ⟨q, by rw [hev, EventPos.run_concat, hrun, Option.bind_some, hafter], hq⟩

@[simp] theorem Phase.fits_run (p : EventPos) : Phase.run.fits p = true ↔ p = .idle := decide_eq_true_iff

@[simp] theorem Phase.fits_inWait (d : Dest) (p : EventPos) :
    (Phase.inWait d).fits p = true ↔ p = .awaitInput := decide_eq_true_iff

@[simp] theorem Phase.fits_outWait (v : W64) (p : EventPos) :
    (Phase.outWait v).fits p = true ↔ p = .awaitOutput := decide_eq_true_iff

/-- Each transition moves the phase and the event sequence together. -/
theorem Transition.eventsOk {s t : State} (h : Transition s t) (hs : s.eventsOk = true) :
    t.eventsOk = true := by
  cases h with
  | fault hp c x =>
    refine State.eventsOk_of_same hs rfl fun p h => ?_
    rw [hp, Phase.fits_run] at h
    rw [h]
    rfl
  | plain | rebase => exact State.eventsOk_of_same hs rfl fun _ => id
  | noSource hp | loseInput hp =>
    refine State.eventsOk_of_same hs rfl fun p h => ?_
    rw [hp, Phase.fits_inWait] at h
    rw [h]
    rfl
  | latchDest hf | latchValue hf | halt hf =>
    refine State.eventsOk_of_emit hs rfl fun p h => ?_
    rw [hf.1, Phase.fits_run] at h
    rw [h]
    exact ⟨_, rfl, rfl⟩
  | storeInput hp =>
    refine State.eventsOk_of_emit hs rfl fun p h => ?_
    rw [hp, Phase.fits_inWait] at h
    rw [h]
    exact ⟨_, rfl, rfl⟩
  | sendOutput hp =>
    refine State.eventsOk_of_emit hs rfl fun p h => ?_
    rw [hp, Phase.fits_outWait] at h
    rw [h]
    exact ⟨_, rfl, rfl⟩

/-! ### The invariant -/

/-- Each transition keeps memory in canonical form (R53). -/
theorem Transition.memWf {s t : State} (h : Transition s t) (hs : s.mem.wf = true) : t.mem.wf = true := by
  cases h with
  | plain _ _ _ hm | storeInput _ _ hm => exact hm hs
  | _ => exact hs

/-- Each transition keeps the halted flag and the phase in agreement (R25). -/
theorem Transition.haltedIff {s t : State} (h : Transition s t) (hs : s.halted = true ↔ s.phase = .halted) :
    t.halted = true ↔ t.phase = .halted := by
  cases h with
  | plain | rebase => exact hs
  | halt => exact ⟨fun _ => rfl, fun _ => rfl⟩
  | fault hp | noSource hp | loseInput hp | storeInput hp | sendOutput hp =>
    exact ⟨fun h => (nomatch hp.symm.trans (hs.1 h)), nofun⟩
  | latchDest hf | latchValue hf => exact ⟨fun h => (nomatch hf.1.symm.trans (hs.1 h)), nofun⟩

/-- A step emits the memory it leaves, so canonical memory makes canonical snapshots (R177). -/
theorem snapshotsWf_of_step {s t : State} (h : step s = .next t) (ht : t.mem.wf = true)
    (hs : ∀ e ∈ s.events, e.snapshot.wf = true) : ∀ e ∈ t.events, e.snapshot.wf = true := by
  intro e he
  obtain ⟨hev, _⟩ | ⟨r, hev, _⟩ := step_events h
  · exact hs e (hev ▸ he)
  · rw [hev, List.mem_append, List.mem_singleton] at he
    obtain he | rfl := he
    · exact hs e he
    · exact ht

/-- No transition changes `N` or an attachment (R26, R29). -/
theorem Transition.fixed {s t : State} (h : Transition s t) :
    t.n = s.n ∧ t.inAttached = s.inAttached ∧ t.outAttached = s.outAttached := by
  cases h <;> exact ⟨rfl, rfl, rfl⟩

/-- Settles O37: each transition keeps each clause of the invariant. -/
theorem stepKeepsTheInvariant : Obligations.StepKeepsTheInvariant := by
  intro s t ⟨hmem, hlen, hhalted, hevents, hsnap⟩ h
  have ht := step_transition h
  obtain ⟨hn, _, _⟩ := ht.fixed
  exact {
    memWf := ht.memWf hmem
    lengthOk := hn ▸ hlen
    haltedIff := ht.haltedIff hhalted
    eventsShape := ht.eventsOk hevents
    snapshotsWf := snapshotsWf_of_step h (ht.memWf hmem) hsnap }

/-- Settles O39: nothing has been emitted at a load, the phase is RUN and the memory is the Program's. -/
theorem loadedCoreMeetsTheInvariant : Obligations.LoadedCoreMeetsTheInvariant := by
  intro program inAtt outAtt values hlen
  exact {
    memWf := Memory.wf_ofWords program hlen
    lengthOk := hlen
    haltedIff := ⟨nofun, nofun⟩
    eventsShape := rfl
    snapshotsWf := fun _ he => absurd he List.not_mem_nil }

/-- Settles O38: the state after reset is a core loaded with the empty Program and supplied with nothing. -/
theorem resetMeetsTheInvariant : Obligations.ResetMeetsTheInvariant :=
  loadedCoreMeetsTheInvariant [] Config.attachedAtReset Config.attachedAtReset [] (Nat.zero_le _)

/-- Settles O40: every field is the reset value, memory reads as the Program. -/
theorem loadGivesResetValues : Obligations.LoadGivesResetValues := by
  intro program inAtt outAtt
  exact ⟨rfl, fun a => State.load_mem_read program inAtt outAtt a, rfl, rfl, rfl, rfl, rfl, rfl, rfl, rfl⟩

/-! ### Writer rules -/

/-- Settles O44: no transition is a write of these fields. -/
theorem lengthAndAttachmentsNeverChange : Obligations.LengthAndAttachmentsNeverChange :=
  fun _ _ h => (step_transition h).fixed

/-- Settles O41: of the transitions that raise a fault only the one that loses an input changes more than
`ip` and the phase. -/
theorem faultLeavesMemoryAndOutput : Obligations.FaultLeavesMemoryAndOutput := by
  intro s t c h hc
  cases step_transition h with
  | fault hp c' x =>
    cases hc
    exact ⟨rfl, fun _ => ⟨rfl, rfl⟩⟩
  | noSource hp =>
    cases hc
    exact ⟨rfl, fun _ => ⟨rfl, rfl⟩⟩
  | loseInput hp c' =>
    cases hc
    exact ⟨rfl, fun hne => absurd hp (hne _)⟩
  | plain hf | rebase hf => cases hf.1.symm.trans hc
  | latchDest | latchValue | halt | storeInput | sendOutput => cases hc

/-- Settles O42: `rebase` is the only transition that writes `rb`. -/
theorem onlyRbsWritesRelativeBase : Obligations.OnlyRbsWritesRelativeBase := by
  intro s t h hne
  cases step_transition h with
  | rebase hf hw hc => exact ⟨hf, hw, hc⟩
  | _ => exact absurd rfl hne

/-- Settles O43: `halt` is the only transition that writes the flag or enters phase HALTED. -/
theorem onlyEndSetsHalted : Obligations.OnlyEndSetsHalted := by
  intro s t h hne
  cases step_transition h with
  | halt hf hw hc => exact ⟨hf, hw, hc, rfl, rfl⟩
  | plain hf | rebase hf =>
    obtain hne | hp := hne
    · exact absurd rfl hne
    · cases hf.1.symm.trans hp
  | fault | latchDest | latchValue | noSource | loseInput | storeInput | sendOutput =>
    obtain hne | hp := hne
    · exact absurd rfl hne
    · cases hp

end Sys2Proof.Machine
end

section
/-! The fetch and the dispatch of one cycle (40_cycle_and_operands.md R131 to R133): what `step` does with the
cells at `ip`. -/

namespace Sys2Proof

/-- A negative word is rejected before its digits are looked at (R84). -/
theorem decode_of_negative {x : Window} (h : x.word.toInt < 0) : decode x = .error (.negativeWord x.word) :=
  if_pos h

namespace Machine

/-- A word that is not negative is its own unsigned value. -/
theorem toInt_eq_toNat {x : W64} (h : 0 ≤ x.toInt) : x.toInt = (x.toNat : Int) := by
  rw [BitVec.toInt_eq_toNat_cond] at h ⊢
  split at h
  · next hlt => rw [if_pos hlt]
  · omega

/-- Inside a program that can be loaded `ip` counts the words past without a wrap, unsigned too. -/
theorem State.advance_ip_toNat {s : State} (h0 : 0 ≤ s.ip.toInt) (hp : ¬ s.pastEnd)
    (hn : s.n ≤ Config.programMax) : s.advance.ip.toNat = s.ip.toNat + 1 := by
  have h1 := State.advance_ip_toInt hp hn
  have h2 := toInt_eq_toNat h0
  have h3 := toInt_eq_toNat (x := s.advance.ip) (by omega)
  omega

theorem State.advance_set_ip (s : State) (x : W64) : { s.advance with ip := x } = { s with ip := x } := rfl

/-- A negative `ip` is before every program's end. -/
theorem step_negative_ip {s : State} (hphase : s.phase = .run) (h : s.ip.toInt < 0) :
    step s = .next (s.raise (.addressRange s.ip.toInt)) := by
  rw [step_run hphase]
  obtain ⟨hp, _⟩ | ⟨_, e⟩ | ⟨h0, _, _⟩ := cycle_cases s
  · exact absurd hp (by omega)
  · exact e
  · exact absurd h0 (by omega)

/-- A step that fetches a word which decodes runs the instruction, `ip` past that word (R131, R132). -/
theorem step_of_decode_ok {s : State} {i : Instr} (hs : s.canFetch)
    (hi : decode (s.advance.window s.wordAtIp) = .ok i) : step s = exec i s.advance := by
  obtain ⟨hphase, hlow, hhigh⟩ := hs
  rw [step_run hphase]
  obtain ⟨h, _⟩ | ⟨h, _⟩ | ⟨_, _, ⟨e, he, _⟩ | ⟨i', hi', hcycle⟩⟩ := cycle_cases s
  · exact absurd h (by omega)
  · exact absurd h (by omega)
  · rw [hi] at he
    cases he
  · rw [hi] at hi'
    cases hi'
    exact hcycle

/-- The decoder's window at `ip` shows the cells of memory, as far as they lie inside the program. -/
theorem window_cells {s : State} (hs : s.canFetch) (hn : s.n ≤ Config.programMax) {k : Nat} (h4 : k < 4)
    (hk : s.ip.toNat + k < s.n) :
    (s.advance.window s.wordAtIp).cells.getD k 0#64 = s.mem.read (s.ip.toNat + k) := by
  obtain ⟨_, h0, h1⟩ := hs
  have hip := State.advance_ip_toNat h0 (by omega) hn
  match k with
  | 0 => rfl
  | k + 1 =>
    have hstream : s.advance.streamWord (s.advance.ip.toNat + k) = s.mem.read (s.ip.toNat + (k + 1)) := by
      rw [hip, State.streamWord, State.advance_n, if_pos (by omega), State.advance_mem,
        show s.ip.toNat + 1 + k = s.ip.toNat + (k + 1) by omega]
    match k with
    | 0 | 1 | 2 => exact hstream

/-- A step runs the instruction whose cells stand at `ip` (R80, R143). -/
theorem step_of_placed {s : State} {i : Instr} (hs : s.canFetch)
    (hlen : s.ip.toInt + (i.length : Int) ≤ (s.n : Int)) (hn : s.n ≤ Config.programMax)
    (hcells : ∀ k, k < i.length → s.mem.read (s.ip.toNat + k) = (encode i).getD k 0#64) :
    step s = exec i s.advance := by
  refine step_of_decode_ok hs (decode_of_cells fun k hk => ?_)
  have hip := toInt_eq_toNat hs.2.1
  have h4 : k < 4 := by
    have := i.opcode.arity_le
    rw [Instr.length] at hk
    omega
  rw [window_cells hs hn h4 (by omega), hcells k hk]

/-- Settles O6: the decoder's answer to a negative word is a reject, whose fault names that word. -/
theorem negativeWordRaisesInvalidOpcode : Obligations.NegativeWordRaisesInvalidOpcode :=
  fun _ hs hneg => step_of_decode_error hs (decode_of_negative hneg)

/-- Settles O8: `ip < N` holds, so the fetch reads memory, at an address that does not exist. -/
theorem negativeIpRaisesAddressRange : Obligations.NegativeIpRaisesAddressRange :=
  fun _ hphase hneg => step_negative_ip hphase hneg

/-- Settles O9: of the cases of a cycle only the decoded one is left. -/
theorem stepRunsTheDecodedInstruction : Obligations.StepRunsTheDecodedInstruction :=
  fun _ _ hs hi => step_of_decode_ok hs hi

/-- Settles O10: the window at `ip` shows the encoded cells, and they decode to the instruction. -/
theorem stepRunsThePlacedInstruction : Obligations.StepRunsThePlacedInstruction :=
  fun _ _ hs hlen hn hcells => step_of_placed hs hlen hn hcells

/-- Settles O13: the store writes the cell at `ip`, and the fetch reads that cell of the memory written. -/
theorem storeIsSeenByTheNextFetch : Obligations.StoreIsSeenByTheNextFetch := by
  intro s t d v hwf haddr hip hstore
  obtain ⟨hlegal, e⟩ | ⟨_, e⟩ := store_cases d v s <;> rw [e] at hstore <;> cases hstore
  rw [haddr] at hlegal
  have hread : (s.mem.write (destAddr d s.rb).toNat v).read s.ip.toInt.toNat = v := by
    rw [haddr, Memory.read_write hwf, if_pos rfl]
  obtain ⟨h, _⟩ | ⟨h, _⟩ | ⟨_, _, hfetch⟩ :=
    fetchWord_cases { s with mem := s.mem.write (destAddr d s.rb).toNat v }
  · exact absurd hip (not_lt.2 h)
  · exact absurd hlegal.1 (not_le.2 h)
  · rw [hfetch, hread]

/-! ### The first instruction of a loaded program -/

/-- The first step of a program that begins with an instruction's cells runs that instruction. -/
theorem step_load {i : Instr} {rest : List W64} (inAtt outAtt : Bool)
    (hlen : (encode i ++ rest).length ≤ Config.programMax) :
    step (State.load (encode i ++ rest) inAtt outAtt) =
      exec i (State.load (encode i ++ rest) inAtt outAtt).advance := by
  have hn : i.length ≤ (encode i ++ rest).length := by simp
  have h1 : 1 ≤ i.length := Nat.le_add_right 1 _
  have hip : (State.load (encode i ++ rest) inAtt outAtt).ip = 0 := rfl
  refine step_of_placed ⟨rfl, hip ▸ le_refl 0, ?_⟩ ?_ hlen fun k hk => ?_
  · exact hip ▸ Int.ofNat_lt.2 (h1.trans hn)
  · exact hip ▸ (Int.zero_add _).trans_le (Int.ofNat_le.2 hn)
  · rw [State.load_mem_read, hip, show (0 : W64).toNat + k = k from Nat.zero_add k,
      List.getD_append _ _ _ _ (encode_length i ▸ hk)]

/-- The assembler's header as one instruction (R110). -/
abbrev headerInstr (nVars : Nat) : Instr :=
  .tjmp ⟨.position, 0⟩ ⟨.immediate, BitVec.ofNat 64 (3 + nVars)⟩

theorem encode_headerInstr (nVars : Nat) :
    encode (headerInstr nVars) = [1005, 0, BitVec.ofNat 64 (3 + nVars)] := by
  simp [encode, Instr.headWord, Instr.params, Instr.opcode, Opcode.code, modeDigits, Mode.digit]

/-- Settles O58: the header is the first instruction; its condition is the header's own word, not 0. -/
theorem headerJumpsOverTheVariables : Obligations.HeaderJumpsOverTheVariables := by
  intro nVars rest inAtt outAtt hpos hlen _
  have hheader : asmHeader nVars = encode (headerInstr nVars) := by
    rw [encode_headerInstr, asmHeader, if_neg hpos.ne']
  rw [hheader] at hlen ⊢
  have hroom : (State.load (encode (headerInstr nVars) ++ rest) inAtt outAtt).advance.roomFor 2 := by
    refine ⟨Int.ofNat_le.2 ?_, hlen⟩
    rw [encode_headerInstr]
    exact Nat.le_add_left 3 rest.length
  have hcond : valueOf (State.load (encode (headerInstr nVars) ++ rest) inAtt outAtt).advance
      ⟨.position, 0⟩ = some 1005 := by
    refine State.cellAt_eq_some.2 ⟨by decide, ?_⟩
    rw [State.advance_mem, State.load_mem_read, encode_headerInstr]
    rfl
  rw [step_load inAtt outAtt hlen, exec_tjmp_ok hroom hcond rfl, if_neg (by decide),
    State.advance_set_ip]

end Machine
end Sys2Proof
end

section
/-! Every instruction as one loop over its parameters and then its effect (40_cycle_and_operands.md R134,
R141): the loop says once when a cycle faults and what a completed one has processed. -/

namespace Sys2Proof

/-- The parameters of an instruction with their kinds. -/
def Instr.operands (i : Instr) : List (Kind × Param) := i.opcode.kinds.zip i.params

theorem Instr.operands_getElem? {i : Instr} {j : Nat} {q : Kind × Param} :
    i.operands[j]? = some q ↔ i.opcode.kinds[j]? = some q.1 ∧ i.params[j]? = some q.2 :=
  List.getElem?_zip_eq_some

@[simp] theorem Instr.operands_length (i : Instr) : i.operands.length = i.opcode.arity := by
  rw [operands, List.length_zip, i.params_length, Opcode.arity, Nat.min_self]

namespace Machine

theorem Result.bind_andThen {α β : Type} (r : Result α) (f : α → State → Result β) (g : β → State → Out) :
    (r.bind f).andThen g = r.andThen fun v t => (f v t).andThen g := by
  cases r <;> rfl

/-! ### The loop and the effects -/

/-- What the parameters processed so far have given: the values in order, and the destination. -/
structure Operands where
  values : List W64
  dest : Dest

/-- Before the first parameter; the destination is a placeholder. -/
def Operands.none : Operands := ⟨[], ⟨.position, 0⟩⟩

/-- Parameter `k` processed as its kind says. -/
def takeParam (k : Nat) (q : Kind × Param) (x : Operands) (s : State) : Result Operands :=
  match q.1 with
  | .value => (takeValue k q.2 s).bind fun v t => .ok { x with values := x.values ++ [v] } t
  | .destination => (takeDest k q.2 s).bind fun d t => .ok { x with dest := d } t

/-- The parameters from number `k` on, each processed completely before the next (R134). -/
def takeParams : Nat → List (Kind × Param) → Operands → State → Result Operands
  | _, [], x, s => .ok x s
  | k, q :: qs, x, s => (takeParam k q x s).bind (takeParams (k + 1) qs)

/-- The write that ends a storing instruction. -/
def storeResult (v : W64) (x : Operands) (s : State) : Out := (store x.dest v s).andThen fun _ t => .next t

/-- What each row does with its processed parameters (R141). -/
def effect : Opcode → Operands → State → Out
  | .add, x, s => storeResult (aluAdd (x.values.getD 0 0#64) (x.values.getD 1 0#64)) x s
  | .mul, x, s => storeResult (aluMul (x.values.getD 0 0#64) (x.values.getD 1 0#64)) x s
  | .lt, x, s => storeResult (aluLt (x.values.getD 0 0#64) (x.values.getD 1 0#64)) x s
  | .eq, x, s => storeResult (aluEq (x.values.getD 0 0#64) (x.values.getD 1 0#64)) x s
  | .inp, x, s => .next ({ s with phase := .inWait x.dest }.emit .aboutToInput)
  | .out, x, s => .next ({ s with phase := .outWait (x.values.getD 0 0#64) }.emit .aboutToOutput)
  | .tjmp, x, s =>
    .next (if isZero (x.values.getD 0 0#64) then s else { s with ip := x.values.getD 1 0#64 })
  | .fjmp, x, s =>
    .next (if isZero (x.values.getD 0 0#64) then { s with ip := x.values.getD 1 0#64 } else s)
  | .rbs, x, s => .next { s with rb := aluAdd s.rb (x.values.getD 0 0#64) }
  | .halt, _, s => .next (s.setHalted.emit .halted)

/-- Each instruction is the loop over its parameters, then its row's effect. -/
theorem exec_eq_takeParams (i : Instr) (s : State) :
    exec i s = (takeParams 1 i.operands .none s).andThen (effect i.opcode) := by
  cases i with
  | add a b d | mul a b d | lt a b d | eq a b d =>
    simp [exec, execAdd, execMul, execLt, execEq, binaryToMemory, Instr.operands, Instr.opcode, Instr.params,
      Opcode.kinds, takeParams, takeParam, Result.bind_andThen, Operands.none, effect, storeResult]
  | tjmp a b | fjmp a b =>
    simp [exec, execTjmp, execFjmp, withTwoValues, Instr.operands, Instr.opcode, Instr.params, Opcode.kinds,
      takeParams, takeParam, Result.bind_andThen, Operands.none, effect]
  | out a | rbs a =>
    simp [exec, execOut, execRbs, withOneValue, Instr.operands, Instr.opcode, Instr.params, Opcode.kinds,
      takeParams, takeParam, Result.bind_andThen, Operands.none, effect]
  | inp d =>
    simp [exec, execInp, Instr.operands, Instr.opcode, Instr.params, Opcode.kinds, takeParams, takeParam,
      Result.bind_andThen, effect]
  | halt => rfl

/-! ### What the loop can do -/

/-- The values and the destination with one parameter more, where it stands for a value or a place. -/
def resolveParam (s : State) (q : Kind × Param) (x : Operands) : Option Operands :=
  match q.1 with
  | .value => (valueOf s q.2).map fun v => { x with values := x.values ++ [v] }
  | .destination => (destOf q.2).map fun d => { x with dest := d }

/-- The same for a list of parameters. -/
def resolveParams (s : State) : List (Kind × Param) → Operands → Option Operands
  | [], x => some x
  | q :: qs, x => (resolveParam s q x).bind (resolveParams s qs)

theorem wellFormed_value_reserved {p : Param} {d : Fin 7} (h : p.mode = .reserved d) :
    p.wellFormed .value = false := by
  obtain ⟨m, w⟩ := p
  cases h
  rfl

theorem wellFormed_destination_of_destOf {p : Param} (h : destOf p = none) :
    p.wellFormed .destination = false := by
  by_contra hwf
  exact destOf_ne_none_of_wellFormed (Bool.not_eq_false _ ▸ hwf) h

/-- Everything the processing of one parameter can do, whatever its kind (R135 to R138). -/
theorem takeParam_cases (k : Nat) (q : Kind × Param) (x : Operands) (s : State) :
    (s.pastEnd ∧ takeParam k q x s = .raised (.incompleteInstruction s.ip) s) ∨
    (¬ s.pastEnd ∧ q.2.wellFormed q.1 = false ∧
      takeParam k q x s = .raised (.invalidParamMode k q.2.mode.digit) s.advance) ∨
    (¬ s.pastEnd ∧ ∃ a, q.1 = .value ∧ readAddr s q.2 = some a ∧ ¬ LegalAddr a ∧
      takeParam k q x s = .raised (.addressRange a) s.advance) ∨
    (¬ s.pastEnd ∧ ∃ y, resolveParam s q x = some y ∧ takeParam k q x s = .ok y s.advance) := by
  obtain ⟨kind, p⟩ := q
  cases kind with
  | value =>
    obtain ⟨hp, e⟩ | ⟨hp, d, hm, e⟩ | ⟨hp, a, hr, ha, e⟩ | ⟨hp, v, hv, e⟩ := takeValue_cases k p s
    · exact .inl ⟨hp, by simp [takeParam, e]⟩
    · exact .inr (.inl ⟨hp, wellFormed_value_reserved hm, by simp [takeParam, e, hm, Mode.digit]⟩)
    · exact .inr (.inr (.inl ⟨hp, a, rfl, hr, ha, by simp [takeParam, e]⟩))
    · exact .inr (.inr (.inr ⟨hp, { x with values := x.values ++ [v] }, by simp [resolveParam, hv],
        by simp [takeParam, e]⟩))
  | destination =>
    obtain ⟨hp, e⟩ | ⟨hp, hd, e⟩ | ⟨hp, d, hd, e⟩ := takeDest_cases k p s
    · exact .inl ⟨hp, by simp [takeParam, e]⟩
    · exact .inr (.inl ⟨hp, wellFormed_destination_of_destOf hd, by simp [takeParam, e]⟩)
    · exact .inr (.inr (.inr ⟨hp, { x with dest := d }, by simp [resolveParam, hd],
        by simp [takeParam, e]⟩))

/-- One word further, as integers: a wrap only makes `ip` smaller. -/
theorem toInt_add_one_le (x : W64) : (x + 1).toInt ≤ x.toInt + 1 := by
  by_cases h : x.toInt < 9223372036854775807
  · exact (toInt_add_one h).le
  · have := BitVec.toInt_lt (x := x + 1)
    omega

/-! When each operand fault fits an instruction, clause by clause (R234, R235, R238). -/

section
variable {i : Instr} {s : State} {j : Nat} {p : Param}

theorem fits_incompleteInstruction {x : W64} (hroom : (s.n : Int) < s.ip.toInt + (i.opcode.arity : Int))
    (hx : (s.n : Int) ≤ x.toInt) : Cause.fits i s (.incompleteInstruction x) := ⟨hroom, hx⟩

theorem fits_invalidParamMode {kind : Kind} (hp : i.params[j]? = some p)
    (hk : i.opcode.kinds[j]? = some kind) (hwf : p.wellFormed kind = false) :
    Cause.fits i s (.invalidParamMode (j + 1) p.mode.digit) := ⟨j, p, kind, rfl, hp, hk, hwf, rfl⟩

theorem fits_operandAddress {a : Int} (hp : i.params[j]? = some p) (hk : i.opcode.kinds[j]? = some .value)
    (hr : readAddr s p = some a) (ha : ¬ LegalAddr a) : Cause.fits i s (.addressRange a) :=
  ⟨ha, .inl ⟨j, p, hp, hk, hr⟩⟩

theorem fits_destinationAddress {d : Dest} (hp : i.params[j]? = some p)
    (hk : i.opcode.kinds[j]? = some .destination) (hd : destOf p = some d)
    (ha : ¬ LegalAddr (destAddr d s.rb)) : Cause.fits i s (.addressRange (destAddr d s.rb)) :=
  ⟨ha, .inr ⟨j, p, d, hp, hk, hd, rfl⟩⟩

end

/-- The loop over the parameters of `i` from number `k + 1` on raises a fault that `i` may raise, or resolves
every one of them; it moves nothing but `ip`. -/
theorem takeParams_cases {i : Instr} {s : State} {qs : List (Kind × Param)} {k : Nat}
    (hqs : ∀ j q, qs[j]? = some q → i.operands[k + j]? = some q) (x : Operands) {ip : W64}
    (hip : ip.toInt ≤ s.ip.toInt + k) :
    (∃ c y, Cause.fits i s c ∧
      takeParams (k + 1) qs x { s with ip := ip } = .raised c { s with ip := y }) ∨
    (∃ z y, resolveParams s qs x = some z ∧
      takeParams (k + 1) qs x { s with ip := ip } = .ok z { s with ip := y }) := by
  induction qs generalizing k x ip with
  | nil => exact .inr ⟨x, ip, rfl, rfl⟩
  | cons q qs ih =>
    obtain ⟨hkind, hparam⟩ := Instr.operands_getElem?.1 (hqs 0 q rfl)
    have harity : k < i.opcode.arity := (List.getElem?_eq_some_iff.1 hkind).1
    rw [takeParams]
    obtain ⟨hp, e⟩ | ⟨_, hwf, e⟩ | ⟨_, a, hval, hr, ha, e⟩ | ⟨_, y, hy, e⟩ :=
      takeParam_cases (k + 1) q x { s with ip := ip } <;> rw [e]
    · have hend : (s.n : Int) ≤ ip.toInt := hp
      exact .inl ⟨_, ip, fits_incompleteInstruction (by omega) hend, rfl⟩
    · exact .inl ⟨_, ip + 1, fits_invalidParamMode hparam hkind hwf, rfl⟩
    · exact .inl ⟨_, ip + 1, fits_operandAddress hparam (hval ▸ hkind) hr ha, rfl⟩
    · have hnext : (ip + 1).toInt ≤ s.ip.toInt + (k + 1 : Nat) :=
        (toInt_add_one_le ip).trans (by push_cast; omega)
      have hrest : ∀ j r, qs[j]? = some r → i.operands[k + 1 + j]? = some r := fun j r h => by
        rw [Nat.add_assoc, Nat.add_comm 1 j]
        exact hqs (j + 1) r h
      have hy : resolveParam s q x = some y := hy
      rw [resolveParams, hy]
      exact ih hrest y hnext

/-- The whole loop of an instruction raises a fault that fits, or resolves all its parameters. -/
theorem takeParams_operands_cases (i : Instr) (s : State) :
    (∃ c y, Cause.fits i s c ∧ takeParams 1 i.operands .none s = .raised c { s with ip := y }) ∨
    (∃ z y, resolveParams s i.operands .none = some z ∧
      takeParams 1 i.operands .none s = .ok z { s with ip := y }) :=
  takeParams_cases (k := 0) (fun j _ h => (Nat.zero_add j).symm ▸ h) .none (Int.add_zero _).ge

/-- A loop that completes inside a program that can be loaded has moved `ip` over words of the program. -/
theorem takeParams_room {qs : List (Kind × Param)} {k : Nat} {x z : Operands} {s t : State}
    (h : takeParams k qs x s = .ok z t) (hn : s.n ≤ Config.programMax) (hip : s.ip.toInt ≤ (s.n : Int)) :
    s.ip.toInt + (qs.length : Int) ≤ (s.n : Int) := by
  induction qs generalizing k x s with
  | nil => simpa using hip
  | cons q qs ih =>
    rw [takeParams] at h
    obtain ⟨_, e⟩ | ⟨_, _, e⟩ | ⟨_, _, _, _, _, e⟩ | ⟨hp, y, _, e⟩ := takeParam_cases k q x s <;>
      rw [e] at h
    · cases h
    · cases h
    · cases h
    · have hadv := State.advance_ip_toInt hp hn
      have hlen := ih (s := s.advance) h hn (by rw [hadv, State.advance_n]; omega)
      rw [hadv, State.advance_n] at hlen
      rw [List.length_cons]
      push_cast
      omega

/-- A resolved list has every parameter resolved. -/
theorem exists_of_resolveParams {s : State} {qs : List (Kind × Param)} {x z : Operands}
    (h : resolveParams s qs x = some z) {q : Kind × Param} (hq : q ∈ qs) :
    (q.1 = .value → ∃ v, valueOf s q.2 = some v) ∧ (q.1 = .destination → ∃ d, destOf q.2 = some d) := by
  induction qs generalizing x with
  | nil => cases hq
  | cons r qs ih =>
    obtain ⟨y, hy, hrest⟩ := Option.bind_eq_some_iff.1 h
    obtain rfl | hq := List.mem_cons.1 hq
    · obtain ⟨kind, p⟩ := q
      cases kind with
      | value =>
        obtain ⟨v, hv, _⟩ := Option.map_eq_some_iff.1 hy
        exact ⟨fun _ => ⟨v, hv⟩, nofun⟩
      | destination =>
        obtain ⟨d, hd, _⟩ := Option.map_eq_some_iff.1 hy
        exact ⟨nofun, fun _ => ⟨d, hd⟩⟩
    · exact ih hrest hq

theorem resolved_of_resolveParams {i : Instr} {s : State} {x z : Operands}
    (h : resolveParams s i.operands x = some z) : Resolved i s := by
  intro j p hp
  have hmem : ∀ kind, i.opcode.kinds[j]? = some kind → (kind, p) ∈ i.operands := fun kind hk =>
    List.mem_of_getElem? (Instr.operands_getElem?.2 ⟨hk, hp⟩)
  exact ⟨fun hk => (exists_of_resolveParams h (hmem _ hk)).1 rfl,
    fun hk => (exists_of_resolveParams h (hmem _ hk)).2 rfl⟩

/-! ### What an instruction's cycle can end in -/

/-- The phase a completed cycle of a row leaves (R140, R221). -/
def CompletesTo (o : Opcode) (s t : State) : Prop :=
  match o with
  | .inp => ∃ d, t.phase = .inWait d
  | .out => ∃ v, t.phase = .outWait v
  | .halt => t.phase = .halted
  | .add | .mul | .tjmp | .fjmp | .lt | .eq | .rbs => t.phase = s.phase

/-- A storing instruction's last parameter is the destination its effect writes to. -/
theorem destOf_of_resolve_three {s : State} {a b d : Param} {x z : Operands}
    (h : resolveParams s [(.value, a), (.value, b), (.destination, d)] x = some z) :
    destOf d = some z.dest := by
  obtain ⟨_, _, h⟩ := Option.bind_eq_some_iff.1 h
  obtain ⟨_, _, h⟩ := Option.bind_eq_some_iff.1 h
  obtain ⟨_, hd, h⟩ := Option.bind_eq_some_iff.1 h
  obtain ⟨dst, hdst, rfl⟩ := Option.map_eq_some_iff.1 hd
  cases h
  exact hdst

/-- The final write completes, or its address does not exist (R139). -/
theorem storeResult_cases (v : W64) (x : Operands) (s : State) :
    (¬ LegalAddr (destAddr x.dest s.rb) ∧
      storeResult v x s = .next (s.raise (.addressRange (destAddr x.dest s.rb)))) ∨
    (∃ t, storeResult v x s = .next t ∧ t.phase = s.phase) := by
  unfold storeResult
  obtain ⟨_, e⟩ | ⟨h, e⟩ := store_cases x.dest v s <;> rw [e]
  · exact .inr ⟨_, rfl, rfl⟩
  · exact .inl ⟨h, rfl⟩

/-- The effect on resolved parameters: the write's own address fault, or completion. -/
theorem effect_cases {i : Instr} {s : State} {z : Operands} (h : resolveParams s i.operands .none = some z)
    (y : W64) :
    (∃ c, Cause.fits i s c ∧ effect i.opcode z { s with ip := y } = .next ({ s with ip := y }.raise c)) ∨
    (∃ t, effect i.opcode z { s with ip := y } = .next t ∧ CompletesTo i.opcode s t) := by
  cases i with
  | add a b d | mul a b d | lt a b d | eq a b d =>
    have hd := destOf_of_resolve_three h
    obtain ⟨hbad, e⟩ | ⟨t, e, ht⟩ := storeResult_cases _ z { s with ip := y }
    · exact .inl ⟨_, fits_destinationAddress (j := 2) rfl rfl hd hbad, e⟩
    · exact .inr ⟨t, e, ht⟩
  | tjmp a b | fjmp a b =>
    refine .inr ⟨_, rfl, ?_⟩
    cases isZero (z.values.getD 0 0#64) <;> rfl
  | rbs a | halt => exact .inr ⟨_, rfl, rfl⟩
  | inp d | out a => exact .inr ⟨_, rfl, _, rfl⟩

/-- An instruction's own cycle raises a fault whose condition holds, or resolves every parameter and
completes (R233 to R239). -/
theorem exec_faulted_or_completed {i : Instr} {s t : State} (h : exec i s = .next t) :
    FaultedBy i s t ∨ (Resolved i s ∧ CompletesTo i.opcode s t) := by
  rw [exec_eq_takeParams] at h
  obtain ⟨c, y, hc, e⟩ | ⟨z, y, hz, e⟩ := takeParams_operands_cases i s
  · rw [e] at h
    cases h
    exact .inl ⟨c, hc, rfl⟩
  · rw [e, Result.ok_andThen] at h
    obtain ⟨c, hc, e⟩ | ⟨u, e, hu⟩ := effect_cases hz y <;> rw [e] at h <;> cases h
    · exact .inl ⟨c, hc, rfl⟩
    · exact .inr ⟨resolved_of_resolveParams hz, hu⟩

/-- A cycle that raises no fault had all its parameter words in the program (R56). -/
theorem exec_room {i : Instr} {s t : State} (h : exec i s = .next t) (ht : t.isFaulted = false)
    (hn : s.n ≤ Config.programMax) (hip : s.ip.toInt ≤ (s.n : Int)) :
    s.ip.toInt + (i.opcode.arity : Int) ≤ (s.n : Int) := by
  rw [exec_eq_takeParams] at h
  cases hr : takeParams 1 i.operands .none s with
  | raised c u =>
    rw [hr] at h
    cases h
    cases ht
  | ok z u => simpa using takeParams_room hr hn hip

/-- Settles O18: the loop's faults and the final write's are the fitting ones; a completed cycle leaves the
phase or enters the one its row leads to. -/
theorem everyFaultHasItsCondition : Obligations.EveryFaultHasItsCondition := by
  intro i s t h
  refine (exec_faulted_or_completed h).imp_right fun ⟨hres, ht⟩ => ⟨hres, ?_⟩
  cases i with
  | inp d => exact .inr (.inl ht)
  | out a => exact .inr (.inr (.inl ht))
  | halt => exact .inr (.inr (.inr ht))
  | add | mul | tjmp | fjmp | lt | eq | rbs => exact .inl ht

/-- Settles O12: the cycle executed a decoded instruction, and its loop found each word before `N`. -/
theorem completedCycleFetchedInsideProgram : Obligations.CompletedCycleFetchedInsideProgram := by
  intro s t hphase hn h ht
  obtain ⟨_, c, x, rfl⟩ | ⟨hf, i, hd, he⟩ | ⟨d, hp, _⟩ | ⟨v, hp, _⟩ := step_next_cases h
  · cases ht
  · obtain ⟨hw, hc⟩ := decode_ok hd
    obtain ⟨_, h0, h1⟩ := hf
    have hadv := State.advance_ip_toInt (s := s) (by omega) hn
    have hroom := exec_room he ht hn (by rw [hadv, State.advance_n]; omega)
    rw [hadv, State.advance_n] at hroom
    exact ⟨i.opcode, hc, hw, h0, hroom⟩
  · cases hphase.symm.trans hp
  · cases hphase.symm.trans hp

end Machine
end Sys2Proof
end

section
/-! Operands that fault (20_memory.md, 40_cycle_and_operands.md R137 to R139): addresses that do not exist and
destinations in a mode they may not have. -/

namespace Sys2Proof.Machine

/-- The storing instructions are those of format VVD (R91). -/
theorem params_of_mem_storing {i : Instr} {a b d : Param}
    (h : i ∈ [Instr.add a b d, .mul a b d, .lt a b d, .eq a b d]) : i.params = [a, b, d] := by
  simp only [List.mem_cons, List.not_mem_nil, or_false] at h
  obtain rfl | rfl | rfl | rfl := h <;> rfl

/-- An instruction whose first parameter is a value starts by processing it. -/
theorem exec_takes_first_value {i : Instr} {p : Param} {ps : List Param} {ks : List Kind}
    (h : i.params = p :: ps) (hk : i.opcode.kinds = .value :: ks) (s : State) :
    ∃ k, exec i s = (takeValue 1 p s).andThen k := by
  cases i with
  | add a b d | mul a b d | lt a b d | eq a b d | tjmp a b | fjmp a b | out a | rbs a =>
    cases h
    exact ⟨_, rfl⟩
  | inp d => cases hk
  | halt => cases h

/-- A storing instruction whose sources exist comes to its destination parameter. -/
theorem exec_takes_dest_last {i : Instr} {p q r : Param} {s : State} {v w : W64}
    (h : i.params = [p, q, r]) (hr : s.roomFor 3) (hv : valueOf s p = some v) (hw : valueOf s q = some w) :
    ∃ u, exec i s = (takeDest 3 r { s with ip := s.ip + 2 }).andThen fun d t =>
      (store d u t).andThen fun _ t' => .next t' := by
  obtain ⟨room1, hr⟩ := State.roomFor_succ hr
  obtain ⟨room2, _⟩ := State.roomFor_succ hr
  obtain ⟨f, e⟩ := exec_of_three_params h s
  refine ⟨f v w, ?_⟩
  rw [e, binaryToMemory, takeValue_ok 1 room1 hv, Result.ok_andThen, takeValue_ok 2 room2 hw,
    Result.ok_andThen, State.advance_advance]

/-- The third of three words is there, in the state whose `ip` is past the first two. -/
theorem State.third_word {s : State} (hr : s.roomFor 3) : ¬ ({ s with ip := s.ip + 2 } : State).pastEnd := by
  obtain ⟨_, hr⟩ := State.roomFor_succ hr
  obtain ⟨_, hr⟩ := State.roomFor_succ hr
  obtain ⟨room3, _⟩ := State.roomFor_succ hr
  rwa [State.advance_advance] at room3

theorem State.advance_two_more (s : State) :
    ({ s with ip := s.ip + 2 } : State).advance = { s with ip := s.ip + 3 } := by
  rw [← State.advance_advance, State.advance_three]

/-- Settles O15: a destination in immediate mode stands for no place, and its parameter is processed after
the sources, or first for `in`. -/
theorem immediateDestinationRaises : Obligations.ImmediateDestinationRaises := by
  refine ⟨fun a b d s v w hr hv hw hm i hi => ?_, fun d s hr hm => ?_⟩
  · have hd : destOf d = none := by rw [destOf, hm]
    obtain ⟨u, e⟩ := exec_takes_dest_last (params_of_mem_storing hi) hr hv hw
    rw [e, takeDest_bad 3 (State.third_word hr) hd, Result.raised_andThen, State.advance_two_more, hm]
    rfl
  · have hd : destOf d = none := by rw [destOf, hm]
    obtain ⟨room1, _⟩ := State.roomFor_succ hr
    rw [exec, execInp, takeDest_bad 1 room1 hd, Result.raised_andThen, hm]
    rfl

/-- Settles O17: the read of the parameter itself raises, whatever the instruction would do next. -/
theorem badOperandAddressRaises : Obligations.BadOperandAddressRaises := by
  refine ⟨fun i s p ps ks a h hk hr ha hbad => ?_, fun i s p q ps ks v a h _ hr hv ha hbad => ?_⟩
  · obtain ⟨room1, _⟩ := State.roomFor_succ hr
    obtain ⟨k, e⟩ := exec_takes_first_value h hk s
    rw [e, takeValue_badAddr 1 room1 ha hbad, Result.raised_andThen]
    rfl
  · obtain ⟨room1, hr⟩ := State.roomFor_succ hr
    obtain ⟨room2, _⟩ := State.roomFor_succ hr
    obtain ⟨k, e⟩ := exec_takes_first_two_params h s
    rw [e, takeValue_ok 1 room1 hv, Result.ok_andThen, takeValue_badAddr 2 room2 ha hbad,
      Result.raised_andThen, State.advance_advance]
    rfl

/-- Settles O19: the address is looked at by the final write only, which raises and writes nothing. -/
theorem badDestinationAddressRaisesLast : Obligations.BadDestinationAddressRaisesLast := by
  intro a b d s v w dst hr hv hw hd hbad i hi
  obtain ⟨u, e⟩ := exec_takes_dest_last (params_of_mem_storing hi) hr hv hw
  rw [e, takeDest_ok 3 (State.third_word hr) hd, Result.ok_andThen, State.advance_two_more,
    store_bad (s := { s with ip := s.ip + 3 }) u hbad, Result.raised_andThen]
  rfl

end Sys2Proof.Machine
end

section
/-! What each instruction answers (41_arithmetic.md, 42_io.md, 43_jumps.md, 44_compare.md,
45_relbase_halt.md): the completed effect, the faults of its operands, its encoding. -/

namespace Sys2Proof.Machine

theorem toInt_eq_zero_iff {v : W64} : v.toInt = 0 ↔ v = 0#64 := BitVec.toInt_inj (y := 0#64)

/-- Settles O20: the shared format VVD with the adder. -/
theorem addStoresWrappedSum : Obligations.AddStoresWrappedSum :=
  fun _ _ _ _ _ _ _ hr hv hw hd ha => binaryToMemory_ok aluAdd hr hv hw hd ha

/-- Settles O21: the shared format VVD with the multiplier. -/
theorem mulStoresWrappedProduct : Obligations.MulStoresWrappedProduct :=
  fun _ _ _ _ _ _ _ hr hv hw hd ha => binaryToMemory_ok aluMul hr hv hw hd ha

/-- Settles O22: format VVD with the signed comparison; a completed cycle of its row keeps the phase; the row
of opcode 7 takes the digits of weight 100 to 10000. -/
theorem ltStoresSignedComparison : Obligations.LtStoresSignedComparison :=
  ⟨fun _ _ _ _ _ _ _ hr hv hw hd ha => binaryToMemory_ok aluLt hr hv hw hd ha,
    fun _ _ _ _ _ h => exec_faulted_or_completed h,
    fun _ hphase hp => step_pastEnd hphase hp,
    fun _ hw hc => decode_of_code (o := .lt) hw hc⟩

/-- Settles O23: format VVD with the equality of words; faults and encoding as for every row. -/
theorem eqStoresEquality : Obligations.EqStoresEquality :=
  ⟨fun _ _ _ _ _ _ _ hr hv hw hd ha => binaryToMemory_ok aluEq hr hv hw hd ha,
    fun _ _ _ _ _ h => exec_faulted_or_completed h,
    fun _ hphase hp => step_pastEnd hphase hp,
    fun _ hw hc => decode_of_code (o := .eq) hw hc⟩

/-- Settles O24: the zero test of the word is that of its integer. -/
theorem tjmpLoadsTargetWhenNonZero : Obligations.TjmpLoadsTargetWhenNonZero := by
  intro a addr s v t hr hv ht
  rw [exec_tjmp_ok hr hv ht]
  simp only [ne_eq, toInt_eq_zero_iff, ite_not]

/-- Settles O25: the zero test of the word is that of its integer; faults and encoding as for every row. -/
theorem fjmpLoadsTargetWhenZero : Obligations.FjmpLoadsTargetWhenZero := by
  refine ⟨fun a addr s v t hr hv ht => ?_, fun _ _ _ _ h => exec_faulted_or_completed h,
    fun _ hphase hp => step_pastEnd hphase hp, fun _ hw hc => decode_of_code (o := .fjmp) hw hc⟩
  rw [exec_fjmp_ok hr hv ht]
  simp only [toInt_eq_zero_iff]

/-- Settles O27: format V; the effect adds to the `rb` the operand was resolved with. -/
theorem rbsAddsToRelativeBase : Obligations.RbsAddsToRelativeBase :=
  fun _ _ _ hr hv => withOneValue_ok _ hr hv

/-- Settles O28: `end` has no parameter, so its effect is its meaning; the phase it leaves has no step. -/
theorem endHaltsTheRun : Obligations.EndHaltsTheRun := by
  refine ⟨fun s => rfl, fun s hs hw hc => ?_, fun _ hphase hp => step_pastEnd hphase hp, fun s t hp h => ?_⟩
  · rw [step_of_decode_ok hs (decode_of_code (x := s.advance.window s.wordAtIp) (o := .halt) hw hc)]
    rfl
  · rw [step_halted hp] at h
    cases h

/-! ### The halves of `in` and `out` -/

theorem State.nextInput_eq (s : State) : s.nextInput = s.inputs.headD (Config.inputValue s.inputsTaken) := by
  rw [State.nextInput]
  cases s.inputs <;> rfl

/-- The second half of `in` without a source (R236, decision D24). -/
theorem finishInp_noSource (d : Dest) {s : State} (h : s.inAttached = false) :
    finishInp d s = .next (s.raise .inputNotConnected) := by
  rw [finishInp, h]
  rfl

/-- The second half of `in` with a destination that does not exist (decision D25). -/
theorem finishInp_badAddr {d : Dest} {s : State} (h : s.inAttached = true)
    (ha : ¬ LegalAddr (destAddr d s.rb)) :
    finishInp d s = .next (s.inputTaken.raise (.addressRange (destAddr d s.rb))) := by
  rw [finishInp, if_pos h, store_bad (s := s.inputTaken) _ ha, Result.raised_andThen]
  rfl

/-- The second half of `in` that stores its value (R170). -/
theorem finishInp_ok {d : Dest} {s : State} (h : s.inAttached = true) (ha : LegalAddr (destAddr d s.rb)) :
    finishInp d s = .next ({ s.inputTaken with
      mem := s.mem.write (destAddr d s.rb).toNat (s.inputs.headD (Config.inputValue s.inputsTaken))
      phase := .run }.emit .afterInput) := by
  rw [finishInp, if_pos h, store_ok (s := s.inputTaken) _ ha, Result.ok_andThen, State.nextInput_eq]
  rfl

/-- Settles O29: the first half latches the descriptor, the second stores through it. -/
theorem inStoresTheNextInput : Obligations.InStoresTheNextInput := by
  intro d s dst hr hd hin ha
  refine ⟨_, execInp_ok hr hd, rfl, ?_⟩
  rw [step_inWait (d := dst) rfl, finishInp_ok]
  · simp [State.emit, State.inputTaken]
  · exact hin
  · exact ha

/-- Settles O30: format V latches the value; the second half has no condition; faults and encoding as for
every row. -/
theorem outSendsTheLatchedValue : Obligations.OutSendsTheLatchedValue := by
  refine ⟨fun _ _ _ hr hv => withOneValue_ok _ hr hv, fun s v hp => ?_,
    fun _ _ _ h => exec_faulted_or_completed h, fun _ hphase hp => step_pastEnd hphase hp,
    fun _ hw hc => decode_of_code (o := .out) hw hc⟩
  rw [step_outWait hp]
  rfl

/-- Settles O31: the source is looked for first. -/
theorem inWithoutSourceRaises : Obligations.InWithoutSourceRaises := by
  intro s d hp hin
  rw [step_inWait hp, finishInp_noSource d hin]
  rfl

/-- Settles O32: the value is taken before the write looks at the address. -/
theorem inBadDestinationLosesTheValue : Obligations.InBadDestinationLosesTheValue := by
  intro s d hp hin ha
  rw [step_inWait hp, finishInp_badAddr hin ha]
  rfl

end Sys2Proof.Machine
end

section
/-! What each instruction leaves unchanged (20_memory.md section 4). -/

namespace Sys2Proof.Machine

theorem operandFault_raise {c : Cause} (hc : c.ofOperands = true) (s : State) (x : W64) :
    OperandFault s ({ s with ip := x }.raise c) := ⟨c, hc, rfl⟩

/-- A write through a natural address leaves every other address alone. -/
theorem Memory.read_write_of_ne {a : Int} (ha : LegalAddr a) (m : Memory) (v : W64) {x : Nat}
    (hx : (x : Int) ≠ a) : (m.write a.toNat v).read x = m.read x := by
  have h0 := ha.1
  exact Memory.read_write_other m a.toNat v (by omega)

/-- Settles O33: format VVD faults with memory untouched, or writes its one destination cell. -/
theorem storingInstructionsFrame : Obligations.StoringInstructionsFrame := by
  intro a b d s t i hi h
  obtain ⟨f, hf⟩ := exec_of_three_params (params_of_mem_storing hi) s
  rw [hf] at h
  obtain ⟨c, x, hc, e⟩ | ⟨v, w, dst, _, _, hd, ha, e⟩ := binaryToMemory_cases f a b d s <;>
    rw [e] at h <;> cases h
  · exact ⟨rfl, .inr (operandFault_raise hc s x), fun _ _ _ _ => rfl, fun _ _ => rfl⟩
  · refine ⟨rfl, .inl rfl, fun dst' hd' x hx => ?_, fun hnone => ?_⟩
    · cases hd.symm.trans hd'
      exact Memory.read_write_of_ne ha s.mem _ hx
    · cases hd.symm.trans hnone

/-- Settles O34: a jump faults or writes `ip`. -/
theorem jumpsFrame : Obligations.JumpsFrame := by
  intro a addr s t i hi h
  simp only [List.mem_cons, List.not_mem_nil, or_false] at hi
  obtain ⟨c, x, hc, e⟩ | ⟨_, _, ho, _⟩ | ⟨x, _, e⟩ | ⟨_, ho, _⟩ | ⟨_, ho, _⟩ | ⟨_, ho, _⟩ | ⟨ho, _⟩ :=
    exec_cases i s
  · rw [e] at h
    cases h
    exact ⟨.inr (operandFault_raise hc s x), fun _ => rfl⟩
  · obtain rfl | rfl := hi <;> simp [Instr.opcode] at ho
  · rw [e] at h
    cases h
    exact ⟨.inl rfl, fun _ => rfl⟩
  all_goals obtain rfl | rfl := hi <;> cases ho

/-- Settles O35: `rbs` faults or writes `rb` and `ip`; `end` writes what its effect names. -/
theorem baseAndHaltFrame : Obligations.BaseAndHaltFrame := by
  refine ⟨fun a s t h => ?_, fun s t h => ?_⟩
  · obtain ⟨c, x, hc, e⟩ | ⟨v, _, e⟩ :=
      withOneValue_cases a s fun v t => { t with rb := aluAdd t.rb v }
    · cases e.symm.trans h
      exact ⟨.inr (operandFault_raise hc s x), fun _ => rfl⟩
    · cases e.symm.trans h
      exact ⟨.inl rfl, fun _ => rfl⟩
  · cases h
    exact ⟨rfl, fun _ => rfl⟩

/-- The first half of `in`, faulted or not. -/
theorem execInp_frame {p : Param} {s t : State} (h : execInp p s = .next t) :
    t = { s with ip := t.ip, phase := t.phase, events := t.events } := by
  obtain ⟨_, _, _, e⟩ | ⟨_, _, e⟩ := execInp_cases p s <;> cases e.symm.trans h <;> rfl

/-- The first half of `out`, faulted or not. -/
theorem execOut_frame {p : Param} {s t : State} (h : execOut p s = .next t) :
    t = { s with ip := t.ip, phase := t.phase, events := t.events } := by
  obtain ⟨_, _, _, e⟩ | ⟨_, _, e⟩ :=
    withOneValue_cases p s fun v t => { t with phase := .outWait v }.emit .aboutToOutput
  all_goals
    cases e.symm.trans h
    rfl

/-- Settles O36: the first halves latch, the second half of `in` writes its one cell, that of `out` none. -/
theorem portInstructionsFrame : Obligations.PortInstructionsFrame := by
  refine ⟨fun p s t i hi h => ?_, fun d s t hp h => ?_, fun v s t hp h => ?_⟩
  · have ht : t = { s with ip := t.ip, phase := t.phase, events := t.events } := by
      simp only [List.mem_cons, List.not_mem_nil, or_false] at hi
      obtain rfl | rfl := hi
      · exact execInp_frame h
      · exact execOut_frame h
    exact ⟨ht, fun x => by rw [ht]⟩
  · rw [step_inWait hp] at h
    obtain ⟨_, e⟩ | ⟨_, _, e⟩ | ⟨_, ha, e⟩ := finishInp_cases d s <;> rw [e] at h <;> cases h
    · exact ⟨rfl, fun _ _ => rfl⟩
    · exact ⟨rfl, fun _ _ => rfl⟩
    · exact ⟨rfl, fun x hx => Memory.read_write_of_ne ha s.mem _ hx⟩
  · rw [step_outWait hp] at h
    cases h
    exact ⟨rfl, fun _ => rfl⟩

end Sys2Proof.Machine
end

section
/-! Where there is a next state (40_cycle_and_operands.md R143, R239): every instruction gives one, and every
step outside the terminal phases. -/

namespace Sys2Proof.Machine

/-- Every instruction gives a next state; a fault it raises is one too (R240). -/
theorem exec_next (i : Instr) (s : State) : ∃ t, exec i s = .next t := by
  obtain ⟨_, _, _, e⟩ | ⟨_, _, _, _, e⟩ | ⟨_, _, e⟩ | ⟨_, _, e⟩ | ⟨_, _, e⟩ | ⟨_, _, e⟩ | ⟨_, e⟩ :=
    exec_cases i s
  all_goals exact ⟨_, e⟩

theorem cycle_next (s : State) : ∃ t, cycle s = .next t := by
  obtain ⟨_, e⟩ | ⟨_, e⟩ | ⟨_, _, ⟨_, _, e⟩ | ⟨i, _, e⟩⟩ := cycle_cases s
  · exact ⟨_, e⟩
  · exact ⟨_, e⟩
  · exact ⟨_, e⟩
  · exact e ▸ exec_next i s.advance

theorem finishInp_next (d : Dest) (s : State) : ∃ t, finishInp d s = .next t := by
  obtain ⟨_, e⟩ | ⟨_, _, e⟩ | ⟨_, _, e⟩ := finishInp_cases d s
  all_goals exact ⟨_, e⟩

/-- A core that has not ended has a next state (R143, R183). -/
theorem step_next {s : State} (h : s.ended = false) : ∃ t, step s = .next t := by
  cases hp : s.phase with
  | run => exact step_run hp ▸ cycle_next s
  | inWait d => exact step_inWait hp ▸ finishInp_next d s
  | outWait v => exact ⟨_, step_outWait hp⟩
  | halted => simp [State.ended, hp] at h
  | faulted c => simp [State.ended, hp] at h

/-- A core that has ended has none. -/
theorem step_of_ended {s : State} (h : s.ended = true) : ∃ f, step s = .fault f := by
  obtain hp | ⟨c, hp⟩ := s.ended_iff.1 h
  · exact ⟨_, step_halted hp⟩
  · exact ⟨_, step_faulted hp⟩

/-- Settles O46: each case of an instruction's meaning names its next state. -/
theorem execAlwaysAnswersNext : Obligations.ExecAlwaysAnswersNext := exec_next

/-- Settles O47: an ended core answers a fault outcome, any other a next state. -/
theorem stepStopsExactlyWhenEnded : Obligations.StepStopsExactlyWhenEnded := by
  refine ⟨fun s => ⟨fun ⟨f, h⟩ => ?_, fun h => step_of_ended (s.ended_iff.2 h)⟩, fun s r h => ?_⟩
  · by_contra hne
    obtain ⟨t, e⟩ := step_next (Bool.eq_false_iff.2 fun hend => hne (s.ended_iff.1 hend))
    cases e.symm.trans h
  · cases hend : s.ended with
    | true =>
      obtain ⟨f, e⟩ := step_of_ended hend
      cases e.symm.trans h
    | false =>
      obtain ⟨t, e⟩ := step_next hend
      cases e.symm.trans h

end Sys2Proof.Machine
end

section
/-! A write read back (20_memory.md R55) and the comparisons as a trichotomy (44_compare.md R212). -/

namespace Sys2Proof.Machine

/-- Settles O51: at legal addresses the cell number is the address, so the memory law is the claim. -/
theorem storedCellReadsBack : Obligations.StoredCellReadsBack := by
  intro s t a b v hwf hwrite hb
  have ha : LegalAddr a := by
    by_contra hbad
    rw [State.memWrite_illegal s hbad] at hwrite
    cases hwrite
  rw [State.memWrite_legal s ha] at hwrite
  cases hwrite
  have hsame : b.toNat = a.toNat ↔ b = a := by
    have := ha.1
    have := hb.1
    omega
  refine ⟨?_, rfl⟩
  rw [State.memRead_legal _ hb, Memory.read_write hwf]
  simp only [hsame]

/-- Settles O52: the integers of two words are less, equal or greater, and equal only for equal words. -/
theorem exactlyOneComparisonHolds : Obligations.ExactlyOneComparisonHolds := by
  intro a b
  obtain h | h | h := lt_trichotomy a.toInt b.toInt
  · have hne : a ≠ b := fun e => h.ne (congrArg _ e)
    exact .inl ⟨if_pos h, if_neg hne, if_neg h.not_gt⟩
  · exact .inr (.inl ⟨if_neg h.not_lt, if_pos (BitVec.eq_of_toInt_eq h), if_neg h.not_gt⟩)
  · have hne : a ≠ b := fun e => h.ne' (congrArg _ e)
    exact .inr (.inr ⟨if_neg h.not_gt, if_neg hne, if_pos h⟩)

end Sys2Proof.Machine
end

section
/-! The host's side (42_io.md R178 to R184, 60_exceptions.md R252): what `Resume` returns, that fuel does not
change it, what a run returns, and what a network's cores see of one another. -/

namespace Sys2Proof.Machine

/-! ### The loop of `Resume` -/

theorem resume_of_ended (fuel : Nat) {s : State} (h : s.ended = true) : resume fuel s = (s, .ended) := by
  rw [resume, if_pos h]

theorem resume_of_not_ended (fuel : Nat) {s : State} (h : s.ended = false) :
    resume fuel s = resumeLoop fuel s := by
  rw [resume, h, if_neg Bool.false_ne_true]

/-- The loop stops at a step that reports. -/
theorem resumeLoop_report (fuel : Nat) {s t : State} {r : ResumeResult} (h : step s = .next t)
    (hr : stepReport s t = some r) : resumeLoop (fuel + 1) s = (t, r) := by
  rw [resumeLoop, h]
  simp only [hr]

/-- The loop goes on after a step that does not. -/
theorem resumeLoop_silent (fuel : Nat) {s t : State} (h : step s = .next t) (hr : stepReport s t = none) :
    resumeLoop (fuel + 1) s = resumeLoop fuel t := by
  rw [resumeLoop, h]
  simp only [hr]

/-- Only the step that halts emits `Halted`. -/
theorem step_emits_halted {s t : State} {m : Memory} (h : step s = .next t)
    (hev : t.events = s.events ++ [⟨.halted, m⟩]) : t.phase = .halted := by
  cases step_transition h with
  | halt => rfl
  | fault | plain | rebase | noSource | loseInput => simp at hev
  | latchDest | latchValue | storeInput | sendOutput => simp at hev

/-- What `Resume` of a core that has not ended has done when it answers `r` in state `t`. -/
def Resumed (s t : State) : ResumeResult → Prop
  | .event e => t.events = s.events ++ [e] ∧ t.mem = e.snapshot ∧ t.isFaulted = false ∧
      (e.reason = .halted → t.phase = .halted)
  | .fault c => t.phase = .faulted c ∧ t.events = s.events
  | .outOfFuel => t.events = s.events ∧ t.ended = false
  | .ended => False

/-- A step that reports has done what its report says. -/
theorem resumed_of_report {s t : State} {r : ResumeResult} (h : step s = .next t)
    (hr : stepReport s t = some r) : Resumed s t r := by
  obtain ⟨c, hc, hev, e⟩ | ⟨reason, hev, hf, e⟩ | ⟨_, _, e⟩ := stepReport_cases h
  · cases e.symm.trans hr
    exact ⟨hc, hev⟩
  · cases e.symm.trans hr
    refine ⟨hev, rfl, hf, ?_⟩
    rintro rfl
    exact step_emits_halted h hev
  · cases e.symm.trans hr

/-- A step that does not report leaves the core running and the event sequence alone. -/
theorem silent_step {s t : State} (h : step s = .next t) (hr : stepReport s t = none) :
    t.events = s.events ∧ t.ended = false := by
  obtain ⟨_, _, _, e⟩ | ⟨_, _, _, e⟩ | ⟨hev, hend, _⟩ := stepReport_cases h
  · cases e.symm.trans hr
  · cases e.symm.trans hr
  · exact ⟨hev, hend⟩

/-- The answer counts from the events at hand only. -/
theorem Resumed.of_events_eq {s u t : State} {r : ResumeResult} (h : Resumed u t r)
    (hev : u.events = s.events) : Resumed s t r := by
  cases r with
  | event e | fault c | outOfFuel =>
    simp only [Resumed, hev] at h ⊢
    exact h
  | ended => exact h

/-- What the loop of `Resume` has done, by induction on the fuel (R178). -/
theorem resumeLoop_resumed {fuel : Nat} {s t : State} {r : ResumeResult} (hs : s.ended = false)
    (h : resumeLoop fuel s = (t, r)) : Resumed s t r := by
  induction fuel generalizing s with
  | zero =>
    cases h
    exact ⟨rfl, hs⟩
  | succ fuel ih =>
    obtain ⟨u, hu⟩ := step_next hs
    cases hr : stepReport s u with
    | some r' =>
      rw [resumeLoop_report fuel hu hr] at h
      cases h
      exact resumed_of_report hu hr
    | none =>
      rw [resumeLoop_silent fuel hu hr] at h
      obtain ⟨hev, hend⟩ := silent_step hu hr
      exact (ih hend h).of_events_eq hev

/-- Settles O53: an ended core is handed back; otherwise the loop has done what its answer says. -/
theorem resumeReturnsTheNextEvent : Obligations.ResumeReturnsTheNextEvent := by
  intro fuel s t r h
  cases hs : s.ended with
  | true =>
    rw [resume_of_ended fuel hs] at h
    cases h
    exact ⟨by simp, fun _ => rfl, nofun, nofun, nofun⟩
  | false =>
    rw [resume_of_not_ended fuel hs] at h
    have hres := resumeLoop_resumed hs h
    cases r with
    | event e =>
      obtain ⟨hev, hmem, hf, _⟩ := hres
      exact ⟨by simp, nofun, by rintro _ ⟨⟩; exact ⟨hev, hmem, hf⟩, nofun, nofun⟩
    | fault c => exact ⟨by simp, nofun, nofun, by rintro _ ⟨⟩; exact hres, nofun⟩
    | outOfFuel => exact ⟨by simp, nofun, nofun, nofun, fun _ => hres⟩
    | ended => exact hres.elim

/-- A step that emits an event without a fault is a whole `Resume`. -/
theorem resume_of_emit (fuel : Nat) {s t : State} {e : Event} (hs : s.ended = false) (h : step s = .next t)
    (hev : t.events = s.events ++ [e]) : resume (fuel + 1) s = (t, .event e) := by
  obtain ⟨_, _, h0, _⟩ | ⟨r, hr, _, hrep⟩ | ⟨h0, _, _⟩ := stepReport_cases h
  · simp [hev] at h0
  · rw [resume_of_not_ended _ hs, resumeLoop_report fuel h hrep]
    cases List.singleton_inj.1 (List.append_cancel_left (hev.symm.trans hr))
    rfl
  · simp [hev] at h0

/-- Settles O54: the second half is one step, and that step emits. -/
theorem resumeFinishesThePendingTransfer : Obligations.ResumeFinishesThePendingTransfer := by
  refine ⟨fun fuel s d hp hin ha => ?_, fun fuel s v hp => ?_⟩
  · have hstep := (step_inWait hp).trans (finishInp_ok hin ha)
    exact ⟨_, hstep, rfl, resume_of_emit fuel (by simp [State.ended, hp]) hstep rfl⟩
  · have hstep : step s = finishOut v s := step_outWait hp
    exact ⟨_, hstep, rfl, resume_of_emit fuel (by simp [State.ended, hp]) hstep rfl⟩

/-- Fuel beyond what the loop used changes nothing. -/
theorem resumeLoop_more_fuel {fuel more : Nat} {s t : State} {r : ResumeResult} (hs : s.ended = false)
    (h : resumeLoop fuel s = (t, r)) (hr : r ≠ .outOfFuel) : resumeLoop (fuel + more) s = (t, r) := by
  induction fuel generalizing s with
  | zero =>
    cases h
    exact absurd rfl hr
  | succ fuel ih =>
    rw [Nat.add_right_comm]
    obtain ⟨u, hu⟩ := step_next hs
    cases hrep : stepReport s u with
    | some r' =>
      rw [resumeLoop_report _ hu hrep] at h ⊢
      exact h
    | none =>
      rw [resumeLoop_silent _ hu hrep] at h ⊢
      exact ih (silent_step hu hrep).2 h

/-- Settles O55: an ended core needs no fuel, and the loop no more than it used. -/
theorem moreFuelSameResume : Obligations.MoreFuelSameResume := by
  intro fuel more s t r h hr
  cases hs : s.ended with
  | true =>
    rw [resume_of_ended _ hs] at h ⊢
    exact h
  | false =>
    rw [resume_of_not_ended _ hs] at h ⊢
    exact resumeLoop_more_fuel hs h hr

/-! ### The single-shot run -/

theorem Reaches.trans {s t u : State} (h : Reaches s t) (h' : Reaches t u) : Reaches s u := by
  induction h' with
  | refl => exact h
  | tail _ hstep ih => exact .tail ih hstep

/-- `Resume` only takes steps. -/
theorem resumeLoop_reaches (fuel : Nat) (s : State) : Reaches s (resumeLoop fuel s).1 := by
  induction fuel generalizing s with
  | zero => exact .refl s
  | succ fuel ih =>
    rw [resumeLoop]
    split
    · next t ht =>
      have hfirst : Reaches s t := .tail (.refl s) ht
      split
      · exact hfirst
      · exact hfirst.trans (ih t)
    · exact .refl s
    · exact .refl s

theorem resume_reaches (fuel : Nat) (s : State) : Reaches s (resume fuel s).1 := by
  rw [resume]
  split
  · exact .refl s
  · exact resumeLoop_reaches fuel s

/-- The answer of a `Resume` that is not `ended` is the loop's. -/
theorem resume_resumed {fuel : Nat} {s t : State} {r : ResumeResult} (h : resume fuel s = (t, r))
    (hr : r ≠ .ended) : Resumed s t r := by
  cases hs : s.ended with
  | true =>
    rw [resume_of_ended fuel hs] at h
    cases h
    exact absurd rfl hr
  | false => exact resumeLoop_resumed hs (resume_of_not_ended fuel hs ▸ h)

/-- A core in the state in which a run returned `r`. -/
def RunEnds (t : State) : RunResult → Prop
  | .finalMemory m => t.EndedProperly ∧ t.mem = m ∧ ∃ evs, t.events = evs ++ [⟨.halted, m⟩]
  | .fault c => t.phase = .faulted c
  | .outOfFuel => True

/-- Draining stops in a reachable state that its answer describes, by induction on the calls (R184). -/
theorem drain_reaches (resumes fuel : Nat) (s : State) :
    ∃ t, Reaches s t ∧ RunEnds t (drain resumes fuel s) := by
  induction resumes generalizing s with
  | zero => exact ⟨s, .refl s, trivial⟩
  | succ resumes ih =>
    have hreach := resume_reaches fuel s
    rw [drain]
    split
    · next t m h =>
      rw [h] at hreach
      obtain ⟨hev, hmem, _, hhalt⟩ := resume_resumed h nofun
      exact ⟨t, hreach, hhalt rfl, hmem, _, hev⟩
    · next t _ _ h =>
      rw [h] at hreach
      obtain ⟨u, hu, hend⟩ := ih t
      exact ⟨u, hreach.trans hu, hend⟩
    · next t c h =>
      rw [h] at hreach
      exact ⟨t, hreach, (resume_resumed h nofun).1⟩
    · exact ⟨s, .refl s, trivial⟩
    · exact ⟨s, .refl s, trivial⟩

/-- Settles O56: a run is a drain from the loaded and supplied core. -/
theorem runReturnsTheFinalMemory : Obligations.RunReturnsTheFinalMemory := by
  intro resumes fuel program inAtt outAtt values
  obtain ⟨t, hreach, hend⟩ :=
    drain_reaches resumes fuel ((State.load program inAtt outAtt).supply values)
  refine ⟨fun m h => ?_, fun c h => ?_⟩
  · rw [run] at h
    rw [h] at hend
    obtain ⟨hhalt, hmem, evs, hev⟩ := hend
    exact ⟨t, evs, hreach, hhalt, hmem, hev⟩
  · rw [run] at h
    rw [h] at hend
    exact ⟨t, hreach, hend⟩

/-! ### The network -/

/-- A step only adds to the output stream (R174). -/
theorem Transition.outputs_prefix {s t : State} (h : Transition s t) : s.outputs <+: t.outputs := by
  cases h with
  | sendOutput =>
    simp only [State.emit_outputs, State.outputWrite_outputs]
    split
    · exact List.prefix_append _ _
    · exact List.prefix_refl _
  | _ => exact List.prefix_refl _

theorem Reaches.outputs_prefix {s t : State} (h : Reaches s t) : s.outputs <+: t.outputs := by
  induction h with
  | refl => exact List.prefix_refl _
  | tail _ hstep ih => exact ih.trans (step_transition hstep).outputs_prefix

/-- What a core handed over is what it added to its output stream. -/
theorem outputs_resume (fuel : Nat) (s : State) :
    (resume fuel s).1.outputs = s.outputs ++ sentBetween s (resume fuel s).1 := by
  obtain ⟨sent, hsent⟩ := (resume_reaches fuel s).outputs_prefix
  rw [sentBetween, ← hsent, List.drop_left]

/-- In a ring of two or more the next core is another one. -/
theorem next_core_ne {k n : Nat} (hk : k < n) (hn : 2 ≤ n) : (k + 1) % n ≠ k := by
  obtain h | h := Nat.lt_or_ge (k + 1) n
  · rw [Nat.mod_eq_of_lt h]
    omega
  · rw [show k + 1 = n by omega, Nat.mod_self]
    omega

/-- Settles O57: the driver replaces core `k` and appends to the next core's queue, and these are two
different places. -/
theorem networkResumeTouchesOnlyTheNextQueue : Obligations.NetworkResumeTouchesOnlyTheNextQueue := by
  intro fuel k net s hs hn
  obtain ⟨hk, _⟩ := List.getElem?_eq_some_iff.1 hs
  have hne := next_core_ne hk hn
  cases hb : s.blocked with
  | true =>
    have e : (Network.resume fuel k net).1 = net := by simp [Network.resume, hs, hb]
    rw [e]
    exact ⟨fun _ _ _ => rfl, fun u hu => ⟨s, [], hs, by simp, by simp [hu]⟩⟩
  | false =>
    have e : (Network.resume fuel k net).1 =
        (net.set k (resume fuel s).1).modify ((k + 1) % net.length)
          (fun u => u.supply (sentBetween s (resume fuel s).1)) := by
      simp [Network.resume, hs, hb]
    rw [e]
    refine ⟨fun j hjk hjn => ?_, fun u hu => ⟨(resume fuel s).1, _, ?_, outputs_resume fuel s, ?_⟩⟩
    · rw [List.getElem?_modify_ne _ _ (Ne.symm hjn), List.getElem?_set_ne (Ne.symm hjk)]
    · rw [List.getElem?_modify_ne _ _ hne, List.getElem?_set_self hk]
    · rw [List.getElem?_modify_eq, List.getElem?_set_ne (Ne.symm hne), hu]
      rfl

end Sys2Proof.Machine
end

section
/-! What a step does not depend on (40_cycle_and_operands.md R144): the model's record of the ports and of the
events. -/

namespace Sys2Proof.Machine

/-- The state with the record of its ports and events replaced. -/
def State.withPorts (s : State) (ins : List W64) (taken : Nat) (outs : List W64) (evs : List Event) :
    State :=
  { s with inputs := ins, inputsTaken := taken, outputs := outs, events := evs }

/-- The same line of `Step` from another state: `f` on the state it leaves. -/
def Result.mapState {α : Type} (f : State → State) : Result α → Result α
  | .ok v s => .ok v (f s)
  | .raised c s => .raised c (f s)

/-- Lines in sequence carry a change of state through, if each of them does. -/
theorem Result.mapState_bind {α β : Type} (f : State → State) (r : Result α) {k : α → State → Result β}
    (hk : ∀ v t, k v (f t) = (k v t).mapState f) : (r.mapState f).bind k = (r.bind k).mapState f := by
  cases r with
  | ok v t => exact hk v t
  | raised c t => rfl

section
variable (ins : List W64) (taken : Nat) (outs : List W64) (evs : List Event)

theorem memRead_withPorts (s : State) (a : Int) :
    (s.withPorts ins taken outs evs).memRead a =
      (s.memRead a).mapState (·.withPorts ins taken outs evs) := by
  by_cases ha : LegalAddr a
  · rw [State.memRead_legal _ ha, State.memRead_legal _ ha]
    rfl
  · rw [State.memRead_illegal _ ha, State.memRead_illegal _ ha]
    rfl

theorem nextWord_withPorts (p : Param) (s : State) :
    nextWord p (s.withPorts ins taken outs evs) =
      (nextWord p s).mapState (·.withPorts ins taken outs evs) := by
  by_cases hp : s.pastEnd
  · rw [nextWord, nextWord, if_pos hp]
    exact if_pos hp
  · rw [nextWord, nextWord, if_neg hp]
    exact if_neg hp

theorem takeValue_withPorts (k : Nat) (p : Param) (s : State) :
    takeValue k p (s.withPorts ins taken outs evs) =
      (takeValue k p s).mapState (·.withPorts ins taken outs evs) := by
  rw [takeValue, nextWord_withPorts]
  refine Result.mapState_bind _ _ fun w t => ?_
  cases p.mode with
  | position | relative => exact memRead_withPorts ins taken outs evs t _
  | immediate | reserved d => rfl

theorem takeDest_withPorts (k : Nat) (p : Param) (s : State) :
    takeDest k p (s.withPorts ins taken outs evs) =
      (takeDest k p s).mapState (·.withPorts ins taken outs evs) := by
  rw [takeDest, nextWord_withPorts]
  refine Result.mapState_bind _ _ fun w t => ?_
  cases p.mode <;> rfl

theorem takeParam_withPorts (k : Nat) (q : Kind × Param) (x : Operands) (s : State) :
    takeParam k q x (s.withPorts ins taken outs evs) =
      (takeParam k q x s).mapState (·.withPorts ins taken outs evs) := by
  obtain ⟨kind, p⟩ := q
  cases kind with
  | value =>
    simp only [takeParam, takeValue_withPorts]
    exact Result.mapState_bind _ _ fun _ _ => rfl
  | destination =>
    simp only [takeParam, takeDest_withPorts]
    exact Result.mapState_bind _ _ fun _ _ => rfl

/-- The parameter loop does not look at the ports' record. -/
theorem takeParams_withPorts (k : Nat) (qs : List (Kind × Param)) (x : Operands) (s : State) :
    takeParams k qs x (s.withPorts ins taken outs evs) =
      (takeParams k qs x s).mapState (·.withPorts ins taken outs evs) := by
  induction qs generalizing k x s with
  | nil => rfl
  | cons q qs ih =>
    rw [takeParams, takeParams, takeParam_withPorts]
    exact Result.mapState_bind _ _ fun y t => ih (k + 1) y t

theorem fetchWord_withPorts (s : State) :
    fetchWord (s.withPorts ins taken outs evs) =
      (fetchWord s).mapState (·.withPorts ins taken outs evs) := by
  by_cases hp : s.pastEnd
  · rw [fetchWord, fetchWord, if_pos hp]
    exact if_pos hp
  · rw [fetchWord, fetchWord, if_neg hp]
    refine (if_neg hp).trans ?_
    rw [memRead_withPorts]
    exact Result.mapState_bind _ _ fun _ _ => rfl

end

/-! ### Meanings that only add to the record -/

/-- Whatever the ports' record is, `m` goes from `s` to the same state, keeps the inputs and appends the same
outputs and events. -/
def OnlyAppends (m : State → Out) (s : State) : Prop :=
  ∃ (t : State) (newOut : List W64) (newEvents : List Event), ∀ ins taken outs evs,
    m (s.withPorts ins taken outs evs) =
      .next (t.withPorts ins taken (outs ++ newOut) (evs ++ newEvents))

theorem onlyAppends_of_keep {m : State → Out} {s : State} (t : State)
    (h : ∀ ins taken outs evs, m (s.withPorts ins taken outs evs) = .next (t.withPorts ins taken outs evs)) :
    OnlyAppends m s :=
  ⟨t, [], [], fun ins taken outs evs => by rw [h, List.append_nil, List.append_nil]⟩

theorem onlyAppends_of_emit {m : State → Out} {s : State} (t : State) (e : Event)
    (h : ∀ ins taken outs evs,
      m (s.withPorts ins taken outs evs) = .next (t.withPorts ins taken outs (evs ++ [e]))) :
    OnlyAppends m s :=
  ⟨t, [], [e], fun ins taken outs evs => by rw [h, List.append_nil]⟩

/-- The same read from the step that was taken. -/
theorem OnlyAppends.next {m : State → Out} {s t : State} (h : OnlyAppends m s) (ht : m s = .next t) :
    ∃ newOut newEvents, t.inputs = s.inputs ∧ t.inputsTaken = s.inputsTaken ∧
      t.outputs = s.outputs ++ newOut ∧ t.events = s.events ++ newEvents ∧
      ∀ ins taken outs evs, m (s.withPorts ins taken outs evs) =
        .next (t.withPorts ins taken (outs ++ newOut) (evs ++ newEvents)) := by
  obtain ⟨u, newOut, newEvents, hu⟩ := h
  have hself : m s = _ := hu s.inputs s.inputsTaken s.outputs s.events
  cases ht.symm.trans hself
  exact ⟨newOut, newEvents, rfl, rfl, rfl, rfl, hu⟩

theorem storeResult_onlyAppends (v : W64) (x : Operands) (s : State) : OnlyAppends (storeResult v x) s := by
  by_cases ha : LegalAddr (destAddr x.dest s.rb)
  · refine onlyAppends_of_keep { s with mem := s.mem.write (destAddr x.dest s.rb).toNat v }
      fun ins taken outs evs => ?_
    rw [storeResult, store_ok (s := s.withPorts ins taken outs evs) v ha]
    rfl
  · refine onlyAppends_of_keep (s.raise (.addressRange (destAddr x.dest s.rb))) fun ins taken outs evs => ?_
    rw [storeResult, store_bad (s := s.withPorts ins taken outs evs) v ha]
    rfl

theorem effect_onlyAppends (o : Opcode) (x : Operands) (s : State) : OnlyAppends (effect o x) s := by
  cases o with
  | add | mul | lt | eq => exact storeResult_onlyAppends _ x s
  | inp =>
    exact onlyAppends_of_emit { s with phase := .inWait x.dest } ⟨.aboutToInput, s.mem⟩ fun _ _ _ _ => rfl
  | out =>
    exact onlyAppends_of_emit { s with phase := .outWait (x.values.getD 0 0#64) } ⟨.aboutToOutput, s.mem⟩
      fun _ _ _ _ => rfl
  | halt => exact onlyAppends_of_emit s.setHalted ⟨.halted, s.mem⟩ fun _ _ _ _ => rfl
  | rbs =>
    exact onlyAppends_of_keep { s with rb := aluAdd s.rb (x.values.getD 0 0#64) } fun _ _ _ _ => rfl
  | tjmp =>
    refine onlyAppends_of_keep
      (if isZero (x.values.getD 0 0#64) then s else { s with ip := x.values.getD 1 0#64 }) fun _ _ _ _ => ?_
    rw [effect]
    split <;> rfl
  | fjmp =>
    refine onlyAppends_of_keep
      (if isZero (x.values.getD 0 0#64) then { s with ip := x.values.getD 1 0#64 } else s) fun _ _ _ _ => ?_
    rw [effect]
    split <;> rfl

/-- A line that does not look at the record, then a meaning that only appends, together only append. -/
theorem onlyAppends_andThen {α : Type} {r : State → Result α} {k : α → State → Out} {s : State}
    (hr : ∀ ins taken outs evs, r (s.withPorts ins taken outs evs) =
      (r s).mapState (·.withPorts ins taken outs evs))
    (hk : ∀ v t, OnlyAppends (k v) t) : OnlyAppends (fun u => (r u).andThen k) s := by
  cases h : r s with
  | ok v t =>
    obtain ⟨u, newOut, newEvents, hu⟩ := hk v t
    refine ⟨u, newOut, newEvents, fun ins taken outs evs => ?_⟩
    simp only [hr, h]
    exact hu ins taken outs evs
  | raised c t =>
    refine onlyAppends_of_keep (t.raise c) fun ins taken outs evs => ?_
    simp only [hr, h]
    rfl

/-- Every instruction's own cycle only appends (R140, R144). -/
theorem exec_onlyAppends (i : Instr) (s : State) : OnlyAppends (exec i) s := by
  rw [funext (exec_eq_takeParams i)]
  exact onlyAppends_andThen (fun ins taken outs evs => takeParams_withPorts ins taken outs evs 1 _ _ s)
    (effect_onlyAppends i.opcode)

@[simp] theorem window_withPorts (s : State) (w : W64) (ins : List W64) (taken : Nat) (outs : List W64)
    (evs : List Event) : (s.withPorts ins taken outs evs).window w = s.window w := rfl

theorem cycle_onlyAppends (s : State) : OnlyAppends cycle s := by
  refine onlyAppends_andThen (fun ins taken outs evs => fetchWord_withPorts ins taken outs evs s)
    fun w t => ?_
  cases h : decode (t.window w) with
  | error e =>
    refine onlyAppends_of_keep (t.raise (rejectCause e)) fun ins taken outs evs => ?_
    simp only [window_withPorts, h]
    rfl
  | ok i =>
    obtain ⟨u, newOut, newEvents, hu⟩ := exec_onlyAppends i t
    refine ⟨u, newOut, newEvents, fun ins taken outs evs => ?_⟩
    simp only [window_withPorts, h]
    exact hu ins taken outs evs

theorem finishOut_onlyAppends (v : W64) (s : State) : OnlyAppends (finishOut v) s := by
  refine ⟨{ s with phase := .run }, if s.outAttached then [v] else [], [⟨.afterOutput, s.mem⟩],
    fun ins taken outs evs => ?_⟩
  cases h : s.outAttached <;>
    simp [finishOut, State.outputWrite, State.withPorts, State.emit, h]

/-- Outside IN_WAIT a step that has a next state only appends (R144). -/
theorem step_onlyAppends {s t : State} (hp : ∀ d, s.phase ≠ .inWait d) (h : step s = .next t) :
    OnlyAppends step s := by
  have same : ∀ {m : State → Out}, (∀ u : State, u.phase = s.phase → step u = m u) → OnlyAppends m s →
      OnlyAppends step s := fun hm ⟨u, newOut, newEvents, hu⟩ =>
    ⟨u, newOut, newEvents, fun ins taken outs evs =>
      (hm (s.withPorts ins taken outs evs) rfl).trans (hu ins taken outs evs)⟩
  cases hphase : s.phase with
  | run => exact same (fun u hu => step_run (hu.trans hphase)) (cycle_onlyAppends s)
  | outWait v => exact same (fun u hu => step_outWait (hu.trans hphase)) (finishOut_onlyAppends v s)
  | inWait d => exact absurd hphase (hp d)
  | halted => cases (step_halted hphase).symm.trans h
  | faulted c => cases (step_faulted hphase).symm.trans h

/-- The second half of `in` sends no output and appends the same events whatever history it starts from. -/
theorem finishInp_appends {d : Dest} {s t : State} (h : finishInp d s = .next t) :
    ∃ newEvents, t.outputs = s.outputs ∧ t.events = s.events ++ newEvents ∧
      ∀ (out : List W64) (evs : List Event), finishInp d { s with outputs := out, events := evs } =
        .next { t with outputs := out, events := evs ++ newEvents } := by
  by_cases hin : s.inAttached = true
  · by_cases ha : LegalAddr (destAddr d s.rb)
    · cases (finishInp_ok hin ha).symm.trans h
      refine ⟨_, rfl, rfl, fun out evs => ?_⟩
      exact finishInp_ok (s := { s with outputs := out, events := evs }) hin ha
    · cases (finishInp_badAddr hin ha).symm.trans h
      refine ⟨[], rfl, (List.append_nil _).symm, fun out evs => ?_⟩
      rw [List.append_nil]
      exact finishInp_badAddr (s := { s with outputs := out, events := evs }) hin ha
  · rw [Bool.not_eq_true] at hin
    cases (finishInp_noSource d hin).symm.trans h
    refine ⟨[], rfl, (List.append_nil _).symm, fun out evs => ?_⟩
    rw [List.append_nil]
    exact finishInp_noSource d (s := { s with outputs := out, events := evs }) hin

/-- Settles O48: the step only appends whatever the inputs are; here the rest of the record is as it was. -/
theorem stepIgnoresInputsUnlessWaiting : Obligations.StepIgnoresInputsUnlessWaiting := by
  intro s t values taken hp h
  obtain ⟨newOut, newEvents, _, _, hout, hev, hall⟩ := (step_onlyAppends hp h).next h
  have hstep := hall values taken s.outputs s.events
  rw [← hout, ← hev] at hstep
  exact hstep

/-- Settles O49: outside IN_WAIT the step only appends; the second half of `in` reads its inputs, but no
history either. -/
theorem stepIgnoresItsHistory : Obligations.StepIgnoresItsHistory := by
  intro s t h
  by_cases hp : ∃ d, s.phase = .inWait d
  · obtain ⟨d, hp⟩ := hp
    obtain ⟨newEvents, hout, hev, hall⟩ := finishInp_appends ((step_inWait hp).symm.trans h)
    refine ⟨[], newEvents, by rw [hout, List.append_nil], hev, fun out evs => ?_⟩
    rw [List.append_nil]
    exact (step_inWait (s := { s with outputs := out, events := evs }) hp).trans (hall out evs)
  · obtain ⟨newOut, newEvents, hin, htaken, hout, hev, hall⟩ :=
      (step_onlyAppends (fun d hd => hp ⟨d, hd⟩) h).next h
    refine ⟨newOut, newEvents, hout, hev, fun out evs => ?_⟩
    refine (hall s.inputs s.inputsTaken out evs).trans ?_
    rw [← hin, ← htaken]
    rfl

end Sys2Proof.Machine
end

section
/-! The model's step and the step the spec prints (40_cycle_and_operands.md R143): decoding the parameter words
with the instruction word and fetching each when its turn comes give the same. -/

namespace Sys2Proof.Machine

/-! ### One parameter by its mode digit -/

/-- A value parameter, its mode given as a digit (R136, R137). -/
theorem takeValue_ofDigit {m : Nat} (hm : m < 10) (k : Nat) (w : W64) {s : State} (hp : ¬ s.pastEnd) :
    takeValue k ⟨Mode.ofDigit m, w⟩ s =
      if 2 < m then .raised (.invalidParamMode k m) s.advance else refResolve m w s.advance := by
  have e : nextWord ⟨Mode.ofDigit m, w⟩ s = .ok w s.advance := if_neg hp
  rw [takeValue, e]
  match m with
  | 0 | 1 | 2 => rfl
  | d + 3 => simp [Mode.ofDigit, Mode.digit, Nat.mod_eq_of_lt (show d < 7 by omega)]

/-- A destination parameter, its mode given as a digit (R136, R138). -/
theorem takeDest_ofDigit {m : Nat} (hm : m < 10) (k : Nat) (w : W64) {s : State} (hp : ¬ s.pastEnd) :
    takeDest k ⟨Mode.ofDigit m, w⟩ s =
      if 2 < m ∨ m = 1 then .raised (.invalidParamMode k m) s.advance
      else .ok (refLatch (m, w)) s.advance := by
  have e : nextWord ⟨Mode.ofDigit m, w⟩ s = .ok w s.advance := if_neg hp
  rw [takeDest, e]
  match m with
  | 0 | 1 | 2 => rfl
  | d + 3 => simp [Mode.ofDigit, Mode.digit, Nat.mod_eq_of_lt (show d < 7 by omega)]

/-- Resolving a value changes no state. -/
theorem refResolve_cases (m : Nat) (w : W64) (s : State) :
    (∃ c, refResolve m w s = .raised c s) ∨ ∃ v, refResolve m w s = .ok v s := by
  have read : ∀ a, (∃ c, s.memRead a = .raised c s) ∨ ∃ v, s.memRead a = .ok v s := fun a => by
    by_cases ha : LegalAddr a
    · exact .inr ⟨_, s.memRead_legal ha⟩
    · exact .inl ⟨_, s.memRead_illegal ha⟩
  rw [refResolve]
  split
  · exact read _
  · split
    · exact .inr ⟨w, rfl⟩
    · exact read _

/-! ### The parameter loop -/

/-- What the printed loop has collected, as the model's operands. -/
def RefParams.latched (x : RefParams) : Operands := ⟨x.values, refLatch x.dest⟩

/-- The parameters of the kinds given as the instruction stream shows them from address `a` on, the first of
them parameter `k` of the instruction word `w`. -/
def streamParams (w : W64) (s : State) : Nat → Nat → List Kind → List (Kind × Param)
  | _, _, [] => []
  | k, a, kind :: ks =>
    (kind, ⟨Mode.ofDigit (modeDigit w k), s.streamWord a⟩) :: streamParams w s (k + 1) (a + 1) ks

/-- The cell the printed loop fetches at `ip` is the one the decoder saw there (R135). -/
theorem memRead_ip {s : State} (h0 : 0 ≤ s.ip.toInt) (hp : ¬ s.pastEnd) :
    s.memRead s.ip.toInt = .ok (s.streamWord s.ip.toNat) s := by
  have hip := toInt_eq_toNat h0
  have hlt := BitVec.toInt_lt (x := s.ip)
  rw [s.memRead_legal ⟨h0, by simp only [Config.addrMax]; omega⟩, State.streamWord, if_pos (by omega), hip,
    Int.toNat_natCast]

/-- One round of the two loops: the same fault, or the same operand and both go on. -/
theorem refParams_cons_cases (w : W64) (kind : Kind) (ks : List Kind) (k : Nat) (x : RefParams) {s : State}
    (h0 : 0 ≤ s.ip.toInt) :
    (∃ c t, refParams w (kind :: ks) k x s = .raised c t ∧
      takeParam k (kind, ⟨Mode.ofDigit (modeDigit w k), s.streamWord s.ip.toNat⟩) x.latched s =
        .raised c t) ∨
    (¬ s.pastEnd ∧ ∃ y, refParams w (kind :: ks) k x s = refParams w ks (k + 1) y s.advance ∧
      takeParam k (kind, ⟨Mode.ofDigit (modeDigit w k), s.streamWord s.ip.toNat⟩) x.latched s =
        .ok y.latched s.advance) := by
  by_cases hp : s.pastEnd
  · refine .inl ⟨.incompleteInstruction s.ip, s, by rw [refParams, if_pos hp], ?_⟩
    cases kind with
    | value => rw [takeParam, takeValue_pastEnd k _ hp, Result.raised_bind]
    | destination => rw [takeParam, takeDest_pastEnd k _ hp, Result.raised_bind]
  have hm := modeDigit_lt w k
  rw [refParams, if_neg hp, memRead_ip h0 hp, Result.ok_bind]
  generalize modeDigit w k = m at hm ⊢
  generalize s.streamWord s.ip.toNat = p
  cases kind with
  | value =>
    simp only [takeParam, takeValue_ofDigit hm k p hp]
    by_cases h2 : 2 < m
    · exact .inl ⟨_, _, if_pos h2, by rw [if_pos h2, Result.raised_bind]⟩
    · simp only [if_neg h2]
      obtain ⟨c, e⟩ | ⟨v, e⟩ := refResolve_cases m p s.advance
      · exact .inl ⟨c, s.advance, by rw [e, Result.raised_bind], by rw [e, Result.raised_bind]⟩
      · exact .inr ⟨hp, { x with values := x.values ++ [v] }, by rw [e, Result.ok_bind],
          by rw [e, Result.ok_bind]; rfl⟩
  | destination =>
    simp only [takeParam, takeDest_ofDigit hm k p hp]
    by_cases h2 : 2 < m
    · exact .inl ⟨_, _, if_pos h2, by rw [if_pos (.inl h2), Result.raised_bind]⟩
    · by_cases h1 : m = 1
      · exact .inl ⟨_, _, by rw [if_neg h2, if_pos h1], by rw [if_pos (.inr h1), Result.raised_bind]⟩
      · exact .inr ⟨hp, { x with dest := (m, p) }, by rw [if_neg h2, if_neg h1],
          by rw [if_neg (by tauto), Result.ok_bind]; rfl⟩

/-- The two loops agree on the parameters of the instruction stream at `ip`, whatever follows them. -/
theorem refParams_andThen (w : W64) (g : Operands → State → Out) (ks : List Kind) (k : Nat) (x : RefParams)
    {s u : State} (hu : u = { s with ip := u.ip }) (hn : s.n ≤ Config.programMax) (h0 : 0 ≤ u.ip.toInt) :
    (refParams w ks k x u).andThen (fun y => g y.latched) =
      (takeParams k (streamParams w s k u.ip.toNat ks) x.latched u).andThen g := by
  induction ks generalizing k x u with
  | nil => rfl
  | cons kind ks ih =>
    have hword : s.streamWord u.ip.toNat = u.streamWord u.ip.toNat := by rw [hu]; rfl
    rw [streamParams, takeParams, hword]
    obtain ⟨c, t, e1, e2⟩ | ⟨hp, y, e1, e2⟩ := refParams_cons_cases w kind ks k x h0
    · rw [e1, e2]
      rfl
    · have hun : u.n ≤ Config.programMax := by rw [hu]; exact hn
      have hnext : u.advance.ip.toInt = u.ip.toInt + 1 := State.advance_ip_toInt hp hun
      rw [e1, e2, Result.ok_bind, ← State.advance_ip_toNat h0 hp hun]
      exact ih (k + 1) y (u := u.advance) (by rw [hu]; rfl) (by omega)

/-! ### Dispatch and effects -/

/-- The numbers of the printed table are the rows' opcodes (R92, R94). -/
theorem refKinds_cases {c : Nat} (hc : c < 100) :
    (∃ o : Opcode, c = o.code ∧ refKinds c = some o.kinds) ∨
      ((c = 0 ∨ (10 ≤ c ∧ c ≤ 98)) ∧ refKinds c = none) := by
  by_cases hbad : c = 0 ∨ (10 ≤ c ∧ c ≤ 98)
  · refine .inr ⟨hbad, ?_⟩
    rw [refKinds, if_neg (by omega), if_neg (by omega), if_neg (by omega), if_neg (by omega),
      if_neg (by omega)]
  · have hrow : c = 1 ∨ c = 2 ∨ c = 3 ∨ c = 4 ∨ c = 5 ∨ c = 6 ∨ c = 7 ∨ c = 8 ∨ c = 9 ∨ c = 99 := by omega
    left
    obtain rfl | rfl | rfl | rfl | rfl | rfl | rfl | rfl | rfl | rfl := hrow
    exacts [⟨.add, rfl, rfl⟩, ⟨.mul, rfl, rfl⟩, ⟨.inp, rfl, rfl⟩, ⟨.out, rfl, rfl⟩, ⟨.tjmp, rfl, rfl⟩,
      ⟨.fjmp, rfl, rfl⟩, ⟨.lt, rfl, rfl⟩, ⟨.eq, rfl, rfl⟩, ⟨.rbs, rfl, rfl⟩, ⟨.halt, rfl, rfl⟩]

theorem destAddr_refLatch (d : Nat × W64) (rb : W64) :
    destAddr (refLatch d) rb = if d.1 = 0 then d.2.toInt else rb.toInt + d.2.toInt := by
  rw [refLatch]
  split <;> rfl

theorem refStore_eq (x : RefParams) (v : W64) (s : State) :
    refStore x.dest v s = storeResult v x.latched s := by
  rw [refStore, storeResult, store, RefParams.latched, destAddr_refLatch]

/-- The printed effects, by opcode number, are the rows' effects (R141). -/
theorem refEffect_eq (o : Opcode) (x : RefParams) (s : State) :
    refEffect o.code x s = effect o x.latched s := by
  cases o with
  | add | mul | lt => exact refStore_eq x _ s
  | eq =>
    refine (refStore_eq x _ s).trans ?_
    simp only [BitVec.toInt_inj]
    rfl
  | inp | out | rbs | halt => rfl
  | tjmp =>
    simp only [effect, isZero_iff]
    exact congrArg Host.Outcome.next (ite_not _ _ _)
  | fjmp =>
    simp only [effect, isZero_iff]
    rfl

/-- What the decoder makes of the cells at `ip` has the stream's parameters. -/
theorem operands_decoded (o : Opcode) (w : W64) (s : State) :
    (o.build ⟨Mode.ofDigit (modeDigit (s.window w).word 1), (s.window w).p1⟩
      ⟨Mode.ofDigit (modeDigit (s.window w).word 2), (s.window w).p2⟩
      ⟨Mode.ofDigit (modeDigit (s.window w).word 3), (s.window w).p3⟩).operands =
      streamParams w s 1 s.ip.toNat o.kinds := by
  cases o <;> rfl

/-- In phase RUN: the same fetch, the same rejects, the same loop and the same effect (R131 to R141). -/
theorem cycle_eq_refStep {s : State} (hphase : s.phase = .run) (hn : s.n ≤ Config.programMax) :
    cycle s = refStep s := by
  rw [cycle, fetchWord, refStep, hphase]
  by_cases hp : s.pastEnd
  · simp only [if_pos hp, Result.raised_andThen]
  by_cases hip : s.ip.toInt < 0
  · have hbad : ¬ LegalAddr s.ip.toInt := fun h => absurd h.1 (by omega)
    simp only [if_neg hp, s.memRead_illegal hbad, Result.raised_bind, Result.raised_andThen]
  have h0 : 0 ≤ s.ip.toInt := by omega
  simp only [if_neg hp, memRead_ip h0 hp, Result.ok_bind, Result.ok_andThen]
  generalize s.streamWord s.ip.toNat = w
  by_cases hneg : w.toInt < 0
  · rw [if_pos hneg, decode_of_negative (x := s.advance.window w) hneg]
    rfl
  have hw : 0 ≤ w.toInt := by omega
  rw [if_neg hneg]
  obtain ⟨o, hc, hk⟩ | ⟨hbad, hk⟩ := refKinds_cases (Nat.mod_lt w.toNat (show 100 > 0 by decide))
  · have hadv := State.advance_ip_toInt hp hn
    have hloop := refParams_andThen w (effect o) o.kinds 1 ⟨[], (0, 0)⟩ (s := s.advance)
      (u := s.advance) rfl hn (by omega)
    rw [decode_of_code (x := s.advance.window w) hw hc, hk, hc]
    simp only [refEffect_eq]
    rw [hloop, exec_eq_takeParams, Opcode.build_opcode, operands_decoded]
    rfl
  · rw [decode_of_illegal_opcode (x := s.advance.window w) hw hbad, hk]
    rfl

/-- In phase IN_WAIT: the same check of the source and the same write (R170). -/
theorem finishInp_eq_refStep {s : State} {d : Dest} (hphase : s.phase = .inWait d) :
    finishInp d s = refStep s := by
  rw [refStep, hphase]
  have haddr : (if d.mode = .position then d.word.toInt else s.inputTaken.rb.toInt + d.word.toInt) =
      destAddr d s.inputTaken.rb := by
    obtain ⟨m, w⟩ := d
    cases m <;> rfl
  simp only [haddr]
  rw [finishInp]
  by_cases h : s.inAttached = true
  · rw [if_pos h, if_neg (by rw [h]; exact Bool.noConfusion)]
    rfl
  · rw [if_neg h, if_pos (Bool.eq_false_iff.2 h)]

/-- In phase OUT_WAIT: the same value handed over or dropped (R171). -/
theorem finishOut_eq_refStep {s : State} {v : W64} (hphase : s.phase = .outWait v) :
    finishOut v s = refStep s := by
  rw [refStep, hphase, finishOut]
  by_cases h : s.outAttached = true <;> simp [State.outputWrite, State.emit, h]

/-- Settles O11: phase by phase; in the terminal phases both answer the same outcome. -/
theorem stepAgreesWithPrintedStep : Obligations.StepAgreesWithPrintedStep := by
  intro s hn
  cases hphase : s.phase with
  | run => rw [step_run hphase, cycle_eq_refStep hphase hn]
  | inWait d => rw [step_inWait hphase, finishInp_eq_refStep hphase]
  | outWait v => rw [step_outWait hphase, finishOut_eq_refStep hphase]
  | halted => rw [step_halted hphase, refStep, hphase]
  | faulted c => rw [step_faulted hphase, refStep, hphase]

end Sys2Proof.Machine
end
